-- ==== Sys2Proof/Word.lean ====
section
/-! DEFINITION. The words of the smol2 core: Byte, Word, the instruction word, register numbers, and the numbers the
spec gives as constants (00_scope.md R6, R7; 91_not_in_source.md N3 asks for named constants). -/

namespace Sys2Proof

/-- A Byte, the unit of memory and of the program image: `BYTE_BITS = 8` (R6, R11). -/
abbrev Byte := BitVec 8

/-- A Word of `wb = WORD_BITS` bits. `WORD_BITS` is OPEN (R6, D2), so the core is written for every width; arithmetic on a
Word wraps modulo `2^WORD_BITS` (R8), which is what `BitVec` arithmetic does. -/
abbrev Word (wb : Nat) := BitVec wb

/-- `WORD_BITS` of the TISA configuration (R220). -/
abbrev tisaWordBits : Nat := 16

/-- `INSN_BITS`, the width of the instruction word (R6, D4). -/
abbrev insnBits : Nat := 32

/-- The instruction word handed to the collaborator (R100, R102). -/
abbrev InsnWord := BitVec insnBits

/-- `INSN_BYTES = instruction_width`, the bytes one instruction occupies (R6, R100). -/
abbrev insnBytes : Nat := 4

/-- `NREGS`, the number of general registers (R6, R23). -/
abbrev nregs : Nat := 16

/-- A RegisterId, an integer in `[0,16)`: an index of 16 or more cannot be written down (R23, R104, R197). -/
abbrev RegisterId := Fin nregs

/-- `HostTime`, the opaque type of `start_timestamp` (R35). No rule of the core reads a value of it. -/
abbrev HostTime := Nat

/-- `LOAD_BASE`, the address of the program image's first byte (R6, R71, D7). -/
abbrev loadBase : Nat := 0

/-- `ENTRY`, the address `boot` writes into `rip` and `next_rip` (R6, R142, D8). -/
abbrev entry (wb : Nat) : Word wb := 0

end Sys2Proof
end

