-- ==== Sys2Proof/Config.lean ====
section
/-! DEFINITION. What an implementation fixes: the parameters of 00_scope.md R6, the collaborator's type (41_collaborator.md
R180), and the TISA test configuration (42_test_isa.md R220). The core is written for every configuration; the machine of the
fixed names runs `Config.tisa`. -/

namespace Sys2Proof

/-- The kind of an Mmu access; a fetch is a `read` (R61, R74). -/
inductive Access where
  | read
  | write
deriving DecidableEq, Repr

/-- The access-fault kinds (R62). -/
inductive FaultKind where
  /-- The byte address is `MEM_SIZE` or more (R63, R64). -/
  | outOfBounds
  /-- Reserved for an extended Mmu; the base Mmu never raises it (R62, R69). -/
  | misaligned
  /-- `PERMITS` denies the access (R74). -/
  | protection
  /-- An extra kind of an extended Mmu, `EXT_FAULT_KINDS` (R62). -/
  | ext (k : Nat)
deriving DecidableEq, Repr

/-- What the check of an extended Mmu may answer: the two kinds that the base Mmu never raises (R62, R69). -/
inductive ExtFault where
  | misaligned
  | ext (k : Nat)
deriving DecidableEq, Repr

/-- The fault kind an extended Mmu's answer stands for (R62). -/
def ExtFault.kind : ExtFault → FaultKind
  | .misaligned => .misaligned
  | .ext k => .ext k

/-- `FETCH_ORDER`: how the 4 fetched bytes form the instruction word (R145). -/
inductive FetchOrder where
  | little
  | big
deriving DecidableEq, Repr

/-- `INT_IN_DELAY_SLOT`: what an enabled interrupt does while a transfer is pending (R283). -/
inductive IntInDelaySlot where
  | refuse
  | clear
  | keep
deriving DecidableEq, Repr

/-- The parameters of R6, for a core with Words of `wb` bits. `EXEC` is a parameter beside it (`Exec`). -/
structure Config (wb : Nat) where
  /-- `MEM_SIZE` (R60). -/
  memSize : Nat
  /-- `PERMITS(addr, access)` (R74). -/
  permits : Nat → Access → Bool
  /-- The extended Mmu's own check, by default none (R62, R69); asked after bounds and `PERMITS` (log 11). -/
  extFault : Nat → Access → Option ExtFault
  /-- `FETCH_ORDER` (R145). -/
  fetchOrder : FetchOrder
  /-- `IRQ_ID` and `HANDLER`: an id is one for which an entry is given (R279, log 13). -/
  handler : Nat → Option (Word wb)
  /-- `INT_IN_DELAY_SLOT` (R283). -/
  intInDelaySlot : IntInDelaySlot
  /-- `INIT_MEM`: what a byte that nothing has written reads as; a draw (R72). -/
  initMem : Nat → Byte
  /-- `INTRET0`: `intret` after `boot`; a draw (R32, R142). -/
  intret0 : Word wb
  /-- `verbose_exec`: no rule reads it, it has no effect on any state field (R39, R157). -/
  verboseExec : Bool

/-- The constraints R6 puts on the parameters. -/
def Config.Valid {wb : Nat} (c : Config wb) : Prop :=
  8 ≤ wb ∧ 1 ≤ c.memSize ∧ c.memSize ≤ 2 ^ wb

/-- The base Mmu, without an extension's own check: the default of `EXT_FAULT_KINDS` (R6, R62). -/
def Config.BaseMmu {wb : Nat} (c : Config wb) : Prop := ∀ a k, c.extFault a k = none

/-- A body: a finite program over the collaborator primitives of R182 to R193, each call's arguments depending on the
results of the earlier calls (R180, R181). `undefined` and `undefinedBehavior` end the body. -/
inductive Body (wb : Nat) where
  /-- The body returns normally (R181). -/
  | done
  /-- `reg(i)` (R182). -/
  | reg (i : RegisterId) (k : Word wb → Body wb)
  /-- `setReg(i, v)` (R183). -/
  | setReg (i : RegisterId) (v : Word wb) (k : Body wb)
  /-- `load(addr)` (R184). -/
  | load (addr : Word wb) (k : Byte → Body wb)
  /-- `store(addr, b)` (R185). -/
  | store (addr : Word wb) (b : Byte) (k : Body wb)
  /-- `rip()` (R186). -/
  | rip (k : Word wb → Body wb)
  /-- `inDelaySlot()` (R187). -/
  | inDelaySlot (k : Bool → Body wb)
  /-- `schedule(target)` (R188). -/
  | schedule (target : Word wb) (k : Body wb)
  /-- `intEnabled()` (R189). -/
  | intEnabled (k : Bool → Body wb)
  /-- `setIntEnabled(b)` (R189). -/
  | setIntEnabled (b : Bool) (k : Body wb)
  /-- `intret()` (R190). -/
  | intret (k : Word wb → Body wb)
  /-- `setIntret(v)` (R190). -/
  | setIntret (v : Word wb) (k : Body wb)
  /-- `halt()` (R191). -/
  | halt (k : Body wb)
  /-- `undefined()` (R192). -/
  | undefined
  /-- `undefinedBehavior(what)` (R193). -/
  | undefinedBehavior (what : String)

/-- `EXEC`, the decode/execute collaborator: a total function from the instruction word to a body (R180, R195). -/
abbrev Exec (wb : Nat) := InsnWord → Body wb

/-- `IRQ_ID = {0,1,2,3}` and `HANDLER(id) = 0x0080 + 0x10*id` of the TISA configuration (R220). -/
def tisaHandler (id : Nat) : Option (Word tisaWordBits) :=
  if id < 4 then some (BitVec.ofNat tisaWordBits (0x0080 + 0x10 * id)) else none

/-- The TISA test configuration (R220). `fetchOrder = little` is the order of R220's byte listings (log 2); `initMem` and
`intret0` are draws that R220 leaves open, and 0 here is a DESIGN CHOICE (logs 3, 4). -/
def Config.tisa : Config tisaWordBits where
  memSize := 0x100
  permits := fun _ _ => true
  extFault := fun _ _ => none
  fetchOrder := .little
  handler := tisaHandler
  intInDelaySlot := .refuse
  initMem := fun _ => 0
  intret0 := 0
  verboseExec := false

end Sys2Proof
end

