-- ==== Sys2Proof/Syntax.lean ====
section
/-! DEFINITION. The instructions: one constructor per row of spec/opcode_table.json (30_encoding.md R102,
42_test_isa.md R222). -/

namespace Sys2Proof

/-- The rows of the opcode table. `A` and `B` are the register fields `[23:20]` and `[19:16]` of format T and `I` its
immediate byte `[7:0]` (R221). -/
inductive Instr where
  /-- The core-level row EXEC-DISPATCH: the whole word goes to the collaborator (R102). The decoder yields it for every
  word that no TISA row matches. -/
  | execDispatch (w : InsnWord)
  /-- LI (R223). -/
  | li (A : RegisterId) (I : Byte)
  /-- SHB (R224). -/
  | shb (A : RegisterId) (I : Byte)
  /-- ADD (R225). -/
  | add (A B : RegisterId)
  /-- SUB (R226). -/
  | sub (A B : RegisterId)
  /-- LB (R227). -/
  | lb (A B : RegisterId)
  /-- SB (R228). -/
  | sb (A B : RegisterId)
  /-- JR (R229). -/
  | jr (A : RegisterId)
  /-- BZ (R230). -/
  | bz (A B : RegisterId)
  /-- EI (R231). -/
  | ei
  /-- DI (R232). -/
  | di
  /-- RDI (R233). -/
  | rdi (A : RegisterId)
  /-- RETI (R234). -/
  | reti
  /-- NOP (R235). -/
  | nop
  /-- JALR (R239). -/
  | jalr (A B : RegisterId)
  /-- ADDI (R240). -/
  | addi (A : RegisterId) (I : Byte)
  /-- HALT (R236). -/
  | halt
deriving DecidableEq, Repr

end Sys2Proof
end

