-- ==== Sys2Proof/WellFormed.lean ====
section
/-! DEFINITION. Which instructions the decoder can yield. Every register and immediate operand of a TISA row fits its
field by its type, so the one check is on the word that EXEC-DISPATCH carries: no TISA row may match it (R222). -/

namespace Sys2Proof

/-- A row of the decode table of 42_test_isa.md R222: a word `w` is in the row when `w & mask = pattern`. -/
structure OpcodeRow where
  mnemonic : String
  mask : InsnWord
  pattern : InsnWord
deriving DecidableEq, Repr

/-- Does the row match the word (R222)? -/
def OpcodeRow.covers (r : OpcodeRow) (w : InsnWord) : Bool := w &&& r.mask == r.pattern

/-- The decode table of R222, letter for letter. -/
def tisaRows : List OpcodeRow := [
  ⟨"LI", 0xFF0FFF00, 0x01000000⟩, ⟨"SHB", 0xFF0FFF00, 0x02000000⟩,
  ⟨"ADD", 0xFF00FFFF, 0x03000000⟩, ⟨"SUB", 0xFF00FFFF, 0x04000000⟩,
  ⟨"LB", 0xFF00FFFF, 0x05000000⟩, ⟨"SB", 0xFF00FFFF, 0x06000000⟩,
  ⟨"JR", 0xFF0FFFFF, 0x07000000⟩, ⟨"BZ", 0xFF00FFFF, 0x08000000⟩,
  ⟨"EI", 0xFFFFFFFF, 0x09000000⟩, ⟨"DI", 0xFFFFFFFF, 0x0A000000⟩,
  ⟨"RDI", 0xFF0FFFFF, 0x0B000000⟩, ⟨"RETI", 0xFFFFFFFF, 0x0C000000⟩,
  ⟨"NOP", 0xFFFFFFFF, 0x0D000000⟩, ⟨"JALR", 0xFF00FFFF, 0x0E000000⟩,
  ⟨"ADDI", 0xFF0FFF00, 0x0F000000⟩, ⟨"HALT", 0xFFFFFFFF, 0xFF000000⟩]

/-- Some TISA row matches the word, so `EXEC` defines it (R222). -/
def tisaDefines (w : InsnWord) : Bool := tisaRows.any (·.covers w)

/-- The mnemonic of the opcode table's row a constructor stands for. -/
def Instr.mnemonic : Instr → String
  | .execDispatch _ => "EXEC-DISPATCH"
  | .li _ _ => "LI" | .shb _ _ => "SHB" | .add _ _ => "ADD" | .sub _ _ => "SUB"
  | .lb _ _ => "LB" | .sb _ _ => "SB" | .jr _ => "JR" | .bz _ _ => "BZ"
  | .ei => "EI" | .di => "DI" | .rdi _ => "RDI" | .reti => "RETI"
  | .nop => "NOP" | .jalr _ _ => "JALR" | .addi _ _ => "ADDI" | .halt => "HALT"

/-- An instruction is well-formed when some word decodes to it: the TISA rows refine EXEC-DISPATCH (R102), so an
`execDispatch` holds a word outside them. -/
def Instr.wf : Instr → Bool
  | .execDispatch w => !tisaDefines w
  | _ => true

end Sys2Proof
end

