-- ==== Sys2Proof/Decode.lean ====
section
/-! DEFINITION. The decoder and the encoder: the instruction word from its bytes (40_core_cycle.md R145), the fields of
format T (42_test_isa.md R221), the instruction a word stands for (R102, R222), and back. -/

namespace Sys2Proof

/-- `assemble`: the instruction word made of the bytes at `rip`, `rip+1`, `rip+2`, `rip+3` (R145). -/
def assembleWord : FetchOrder → Byte → Byte → Byte → Byte → InsnWord
  | .little, b0, b1, b2, b3 => b3 ++ b2 ++ b1 ++ b0
  | .big, b0, b1, b2, b3 => b0 ++ b1 ++ b2 ++ b3

/-- Byte `k` of a word, counted from its least significant byte. -/
def wordByte (w : InsnWord) (k : Nat) : Byte := w.extractLsb' (8 * k) 8

/-- The 4 bytes of a word in memory, lowest address first (R145). -/
def wordBytes : FetchOrder → InsnWord → List Byte
  | .little, w => [wordByte w 0, wordByte w 1, wordByte w 2, wordByte w 3]
  | .big, w => [wordByte w 3, wordByte w 2, wordByte w 1, wordByte w 0]

/-- Field `op`, bits `[31:24]` (R221). -/
def fieldOp (w : InsnWord) : BitVec 8 := w.extractLsb' 24 8

/-- Field `A`, bits `[23:20]` (R221). -/
def fieldA (w : InsnWord) : BitVec 4 := w.extractLsb' 20 4

/-- Field `B`, bits `[19:16]` (R221). -/
def fieldB (w : InsnWord) : BitVec 4 := w.extractLsb' 16 4

/-- Field `Z`, bits `[15:8]`, which must be zero (R221). -/
def fieldZ (w : InsnWord) : BitVec 8 := w.extractLsb' 8 8

/-- Field `I`, bits `[7:0]` (R221). -/
def fieldI (w : InsnWord) : Byte := w.extractLsb' 0 8

/-- The RegisterId a 4-bit field names: every value of the field is one (R104, R221). -/
def registerOf (f : BitVec 4) : RegisterId := ⟨f.toNat, f.isLt⟩

/-- The 4-bit field that names a RegisterId (R221). -/
def fieldOf (r : RegisterId) : BitVec 4 := BitVec.ofNat 4 r.val

/-- A row is taken when its unused fields are zero; otherwise the word is in no row (R222) and goes whole to EXEC (R102). -/
def rowOr (unusedZero : Bool) (i : Instr) (w : InsnWord) : Instr :=
  if unusedZero then i else .execDispatch w

/-- The instruction a word stands for, total on every word: the TISA row it matches (R222), else EXEC-DISPATCH (R102). -/
def decodeWord (w : InsnWord) : Instr :=
  let A := registerOf (fieldA w)
  let B := registerOf (fieldB w)
  let I := fieldI w
  let zA := fieldA w == 0
  let zB := fieldB w == 0
  let zZ := fieldZ w == 0
  let zI := I == 0
  match (fieldOp w).toNat with
  | 0x01 => rowOr (zB && zZ) (.li A I) w
  | 0x02 => rowOr (zB && zZ) (.shb A I) w
  | 0x03 => rowOr (zZ && zI) (.add A B) w
  | 0x04 => rowOr (zZ && zI) (.sub A B) w
  | 0x05 => rowOr (zZ && zI) (.lb A B) w
  | 0x06 => rowOr (zZ && zI) (.sb A B) w
  | 0x07 => rowOr (zB && zZ && zI) (.jr A) w
  | 0x08 => rowOr (zZ && zI) (.bz A B) w
  | 0x09 => rowOr (zA && zB && zZ && zI) .ei w
  | 0x0A => rowOr (zA && zB && zZ && zI) .di w
  | 0x0B => rowOr (zB && zZ && zI) (.rdi A) w
  | 0x0C => rowOr (zA && zB && zZ && zI) .reti w
  | 0x0D => rowOr (zA && zB && zZ && zI) .nop w
  | 0x0E => rowOr (zZ && zI) (.jalr A B) w
  | 0x0F => rowOr (zB && zZ) (.addi A I) w
  | 0xFF => rowOr (zA && zB && zZ && zI) .halt w
  | _ => .execDispatch w

/-- Why bytes hold no instruction. Every 4 bytes hold one, since every word is handed to EXEC (R102). -/
inductive DecodeReject where
  /-- Fewer than `INSN_BYTES` bytes are left (R100). -/
  | truncated
deriving DecidableEq, Repr

/-- Decode the instruction at the head of a list of bytes and give the rest of the list (R100, R102, R145). -/
def decode (o : FetchOrder) : List Byte → Except DecodeReject (Instr × List Byte)
  | b0 :: b1 :: b2 :: b3 :: rest => .ok (decodeWord (assembleWord o b0 b1 b2 b3), rest)
  | _ => .error .truncated

/-- A word of format T from its fields, `Z` being zero (R221). -/
def formatT (op : BitVec 8) (A B : BitVec 4) (I : Byte) : InsnWord :=
  op ++ A ++ B ++ (0 : BitVec 8) ++ I

/-- The word of an instruction, from the encoding line of its rule (R223 to R236, R239, R240; R102). -/
def encodeWord : Instr → InsnWord
  | .execDispatch w => w
  | .li A I => formatT 0x01 (fieldOf A) 0 I
  | .shb A I => formatT 0x02 (fieldOf A) 0 I
  | .add A B => formatT 0x03 (fieldOf A) (fieldOf B) 0
  | .sub A B => formatT 0x04 (fieldOf A) (fieldOf B) 0
  | .lb A B => formatT 0x05 (fieldOf A) (fieldOf B) 0
  | .sb A B => formatT 0x06 (fieldOf A) (fieldOf B) 0
  | .jr A => formatT 0x07 (fieldOf A) 0 0
  | .bz A B => formatT 0x08 (fieldOf A) (fieldOf B) 0
  | .ei => formatT 0x09 0 0 0
  | .di => formatT 0x0A 0 0 0
  | .rdi A => formatT 0x0B (fieldOf A) 0 0
  | .reti => formatT 0x0C 0 0 0
  | .nop => formatT 0x0D 0 0 0
  | .jalr A B => formatT 0x0E (fieldOf A) (fieldOf B) 0
  | .addi A I => formatT 0x0F (fieldOf A) 0 I
  | .halt => formatT 0xFF 0 0 0

/-- The bytes of an instruction in memory, lowest address first (R100, R145). -/
def encode (o : FetchOrder) (i : Instr) : List Byte := wordBytes o (encodeWord i)

/-- The instruction the decoder reads from a word given as spec/opcode_table.json numbers bits: bit 0 is the least
significant bit of the one 32-bit word (R7, R100); bits from `nbits` up are 0. A width above 32 bits is no instruction (R100). -/
def decodeTableWord (nbits w : Nat) : Option Instr :=
  if nbits ≤ insnBits then
    match decode .little (wordBytes .little (BitVec.ofNat insnBits (w % 2 ^ nbits))) with
    | .ok (i, _) => some i
    | .error _ => none
  else none

end Sys2Proof
end

