-- ==== Sys2Proof/Machine/State.lean ====
section
/-! DEFINITION. The state of the core (10_state.md R20), for Words of any width (`Smol2.State wb`), and the fixed machine's
state, `Machine.State = Smol2.State 16` (42_test_isa.md R220), with its reset value (70_reset_and_hazards.md R320, R321). -/

namespace Sys2Proof.Smol2

/-- The reason `fire_exception` records (R271). A byte address is a natural number, since the bytes of a multi-byte access
are addressed without wrapping (R67, R144, log 12). -/
inductive FaultReason (wb : Nat) where
  /-- Codes 1, 2, 3 and 16+k: the failing byte address and the access (R271). -/
  | accessFault (kind : FaultKind) (addr : Nat) (access : Access)
  /-- Code 4: the instruction word and its address (R192, R271). -/
  | undefinedOpcode (w : InsnWord) (a : Word wb)
  /-- Code 5: the label, the word and its address (R193, R271). -/
  | execFault (what : String) (w : InsnWord) (a : Word wb)
deriving DecidableEq, Repr

/-- `run`, the core's state-machine state (R33). -/
inductive RunState (wb : Nat) where
  | idle
  | running
  | faulted (reason : FaultReason wb)
  | halted
deriving DecidableEq, Repr

/-- An event of the host-visible trace, one call of a callback (R9, R38). -/
inductive Event (wb : Nat) where
  | panic (reason : FaultReason wb)
  | keepalive
deriving DecidableEq, Repr

/-- A call the host makes, between cycles (R140, R298). `boot` carries what the host's clock says then, the draw `now()` of
R142. -/
inductive HostCall where
  | boot (now : HostTime)
  | executeSingle
  | fireInterrupt (id : Nat)
deriving DecidableEq, Repr

/-- The state record of R20, then the trace of R38 and the host's side of R298. -/
structure State (wb : Nat) where
  /-- The register file (R21 to R26). -/
  regs : Vector (Word wb) nregs
  /-- `rip` (R27). -/
  rip : Word wb
  /-- `next_rip` (R28). -/
  nextRip : Word wb
  /-- `t_bit` (R29). -/
  tBit : Bool
  /-- `current_instruction` (R30). -/
  currentInstruction : Option InsnWord
  /-- `InterruptState.enabled` (R31). -/
  enabled : Bool
  /-- `InterruptState.intret` (R32). -/
  intret : Word wb
  /-- `run` (R33). -/
  run : RunState wb
  /-- `executed_ops` (R34). -/
  executedOps : Nat
  /-- `start_timestamp` (R35). -/
  startTimestamp : HostTime
  /-- The Mmu's backing store (R40), a canonical list of cells (log 17). -/
  mem : List Host.Cell
  /-- The events emitted so far, oldest first (R9, R38, log 8). -/
  trace : List (Event wb)
  /-- The calls the host is about to make, next first (R298, log 7): the model's own field. -/
  host : List HostCall
  /-- The answers of `fire_interrupt` the host has got back, oldest first (R298, log 7): the model's own field. -/
  replies : List Bool
deriving DecidableEq, Repr

/-- The state after construction, before an image is loaded (R141): `Idle`, registers zero, no instruction. The fields R321
calls "unread" hold 0 here (log 14). -/
def State.unloaded (wb : Nat) : State wb where
  regs := Vector.replicate nregs 0
  rip := 0
  nextRip := 0
  tBit := false
  currentInstruction := none
  enabled := false
  intret := 0
  run := .idle
  executedOps := 0
  startTimestamp := 0
  mem := []
  trace := []
  host := []
  replies := []

end Sys2Proof.Smol2

namespace Sys2Proof.Machine

/-- The state of the machine of the fixed names: the core with the TISA configuration's Words of 16 bits (R220). -/
abbrev State := Smol2.State tisaWordBits

/-- The reasons for which a step ends outside the state: there are none. A fault of this hardware is taken (R10, R274): the
step ends in a next state with `run = Faulted(reason)`. Nobody raises a `Fault`, which is safe (log 9). -/
inductive Fault where
deriving DecidableEq, Repr

/-- Why the machine has no step (R10): the operation is not admitted in the state. Each one is safe: where an emulator
goes on, the model stops. -/
inductive Refusal where
  /-- Raised by `exec` for an instruction with no meaning. Safe. No arm raises it. -/
  | notModelled (mnemonic : String)
  /-- Raised by `execute_single` in `Idle` (R146). Safe. -/
  | executeInIdle
  /-- Raised by `execute_single` in `Halted` (R146, R154). Safe. -/
  | executeInHalted
  /-- Raised by `execute_single` in `Faulted` (R146, R275). Safe. -/
  | executeInFaulted
  /-- Raised by `boot` in `Running` once a cycle has fetched, the undefined re-boot (R143). Safe. -/
  | rebootMidRun
  /-- Raised by `boot` in `Halted` or `Faulted` (R143, R275). Safe. -/
  | bootAfterEnd
  /-- Raised by `fire_interrupt` outside `Running` (R284). Safe. -/
  | interruptNotRunning
  /-- Raised by an enabled `fire_interrupt` while a transfer is pending, under `INT_IN_DELAY_SLOT = Refuse` (R283). Safe. -/
  | interruptInDelaySlot
  /-- Raised by `fire_interrupt(id)` for an `id` outside `IRQ_ID`, which R279's type does not let a host write (log 13). Safe. -/
  | notAnInterruptId
deriving DecidableEq, Repr

/-- The machine right after reset, which is construction followed by `boot()` (R320, R321). No image is loaded: memory
lists nothing, and a program is loaded from outside (R72, log 6). `intret` holds the configuration's `INTRET0` (log 4) and
`start_timestamp` holds 0 for the draw `now()` (log 5). -/
def State.reset : State where
  regs := Vector.replicate nregs 0
  rip := entry tisaWordBits
  nextRip := entry tisaWordBits
  tBit := false
  currentInstruction := none
  enabled := false
  intret := Config.tisa.intret0
  run := .running
  executedOps := 0
  startTimestamp := 0
  mem := []
  trace := []
  host := []
  replies := []

end Sys2Proof.Machine
end

