-- ==== Sys2Proof/Machine/Flags.lean ====
section
/-! DEFINITION. The core has no condition codes, status flags or predicates, and no instruction computes one (10_state.md
R36; 42_test_isa.md: "TISA has none"). Its only one-bit state is `t_bit` and `enabled`; the operations on them stand here. -/

namespace Sys2Proof.Smol2

variable {wb : Nat}

/-- `setIntEnabled(b)`: write `InterruptState.enabled` (R31, R189). -/
def State.setIntEnabled (s : State wb) (b : Bool) : State wb := { s with enabled := b }

/-- `setIntret(v)`: write `InterruptState.intret` (R32, R190). -/
def State.setIntret (s : State wb) (v : Word wb) : State wb := { s with intret := v }

/-- Record the pending transfer at the end of a cycle (R151): a scheduled target becomes `next_rip` with `t_bit = 1`;
without one `t_bit` is cleared and `next_rip` keeps its value. -/
def State.recordTransfer (s : State wb) (sched : Option (Word wb)) : State wb :=
  match sched with
  | some target => { s with nextRip := target, tBit := true }
  | none => { s with tBit := false }

end Sys2Proof.Smol2
end

