-- ==== Sys2Proof/Machine/Memory.lean ====
section
/-! DEFINITION. The memory unit: the backing store as a canonical list of cells, the byte operations `read` and `write`
with their access status (20_memory.md R60 to R66), and the loading of an image (R72, R105). -/

namespace Sys2Proof.Machine

/-- The Byte at an address. An address that is not listed reads as `INIT_MEM` says (`fill`, R72); this is the one
definition of what an unlisted address reads as. -/
def Memory.get (fill : Nat → Byte) : List Host.Cell → Nat → Byte
  | [], a => fill a
  | (k, b) :: rest, a => if k = a then b else Memory.get fill rest a

/-- Put a cell for an address that is not listed into a list of rising addresses. -/
def Memory.insert (a : Nat) (v : Byte) : List Host.Cell → List Host.Cell
  | [] => [(a, v)]
  | (k, b) :: rest => if a < k then (a, v) :: (k, b) :: rest else (k, b) :: Memory.insert a v rest

/-- `mem[a] <- v`, keeping the canonical form: a Byte equal to what the unlisted address reads as is not listed. -/
def Memory.set (fill : Nat → Byte) (m : List Host.Cell) (a : Nat) (v : Byte) : List Host.Cell :=
  let others := m.filter fun e => e.1 != a
  if v = fill a then others else Memory.insert a v others

/-- The canonical form of a store of `size` Bytes: addresses strictly rising, each below `size`, and no cell equal to what
the unlisted address reads as. -/
abbrev Memory.wf (fill : Nat → Byte) (size : Nat) (m : List Host.Cell) : Prop :=
  m.Pairwise (fun x y => x.1 < y.1) ∧ ∀ e ∈ m, e.1 < size ∧ e.2 ≠ fill e.1

/-- Lay bytes at `a`, `a+1`, ..., straight into the store (R72). A byte that would fall outside `[0, size)` has no place in
the store (R60) and is dropped. -/
def Memory.place (fill : Nat → Byte) (size : Nat) : List Host.Cell → Nat → List Byte → List Host.Cell
  | m, _, [] => m
  | m, a, b :: bs =>
    Memory.place fill size (if a < size then Memory.set fill m a b else m) (a + 1) bs

end Sys2Proof.Machine

namespace Sys2Proof.Smol2
open Sys2Proof.Machine

variable {wb : Nat}

/-- `AccessStatus` (R61): `success` carries the Byte of a read and nothing for a write. -/
inductive AccessStatus where
  | success (value : Option Byte)
  | fault (kind : FaultKind) (addr : Nat) (access : Access)
deriving DecidableEq, Repr

/-- The checks that come before any access to the store: bounds, then `PERMITS` (R63, R64, D11), then the extended Mmu's
own check (R62, R69, log 11). -/
def Mmu.check (c : Config wb) (a : Nat) (k : Access) : Option FaultKind :=
  if c.memSize ≤ a then some .outOfBounds
  else if !c.permits a k then some .protection
  else (c.extFault a k).map ExtFault.kind

/-- The Byte in the store at an address, unchecked: what `mem[addr]` denotes in the rules. -/
def State.byteAt (c : Config wb) (s : State wb) (a : Nat) : Byte := Memory.get c.initMem s.mem a

/-- `read(addr)` (R63). It changes no state. -/
def Mmu.read (c : Config wb) (s : State wb) (a : Nat) : AccessStatus :=
  match Mmu.check c a .read with
  | some kind => .fault kind a .read
  | none => .success (some (s.byteAt c a))

/-- `write(addr, v)` (R64): on a fault there is no mutation (R65). -/
def Mmu.write (c : Config wb) (s : State wb) (a : Nat) (v : Byte) : AccessStatus × State wb :=
  match Mmu.check c a .write with
  | some kind => (.fault kind a .write, s)
  | none => (.success none, { s with mem := Memory.set c.initMem s.mem a v })

/-- Construct a Core and load its image at `LOAD_BASE` (R72, R141, R324): `Idle`, memory the image and `INIT_MEM` elsewhere.
An image that does not fit cannot be loaded (R73). -/
def construct (c : Config wb) (image : List Byte) : Option (State wb) :=
  if loadBase + image.length ≤ c.memSize then
    some { State.unloaded wb with mem := Memory.place c.initMem c.memSize [] loadBase image }
  else none

end Sys2Proof.Smol2
end

