-- ==== Sys2Proof/Machine/Operands.lean ====
section
/-! DEFINITION. The operand forms: a register operand, the immediates and the byte of a Word (00_scope.md R8, R9;
42_test_isa.md R221). -/

namespace Sys2Proof.Smol2

variable {wb : Nat}

/-- `x[i]`: read a general register (R21, R182). No register is hardwired, aliased or banked (R24). -/
def State.reg (s : State wb) (i : RegisterId) : Word wb := s.regs[i]

/-- `x[i] <- v`: write a general register (R22, R183). -/
def State.setReg (s : State wb) (i : RegisterId) (v : Word wb) : State wb :=
  { s with regs := s.regs.set i v }

/-- `zext_16` of a Byte (R8, R221, R227). -/
def zext16 (b : Byte) : Word tisaWordBits := b.setWidth tisaWordBits

/-- `sext_16` of a Byte (R8, R240). -/
def sext16 (b : Byte) : Word tisaWordBits := b.signExtend tisaWordBits

/-- `v[7:0]`, the low byte of a Word (R7, R185, R228). -/
def lowByte (v : Word wb) : Byte := v.extractLsb' 0 8

end Sys2Proof.Smol2
end

