-- ==== Sys2Proof/Machine/Ops.lean ====
section
/-! DEFINITION. The operations of the core: taking a fault and accepting an interrupt (60_exceptions.md), the checked
accesses (R66, R67), running a body (41_collaborator.md), boot, fetch and the execute cycle (40_core_cycle.md), and the host's
calls (R298). They hold for every configuration and every collaborator. -/

namespace Sys2Proof.Smol2
open Sys2Proof.Machine

variable {wb : Nat}

/-- An operation's outcome: a next state, or no step (R10). -/
abbrev Outcome (wb : Nat) := Host.Outcome (State wb) Fault Refusal

/-! ## Faults -/

/-- The numeric code of a fault reason (R271). -/
def FaultReason.code : FaultReason wb → Nat
  | .accessFault .outOfBounds _ _ => 1
  | .accessFault .misaligned _ _ => 2
  | .accessFault .protection _ _ => 3
  | .accessFault (.ext k) _ _ => 16 + k
  | .undefinedOpcode _ _ => 4
  | .execFault _ _ _ => 5

/-- `emit(event)`: append an event to the trace (R9). -/
def State.emit (s : State wb) (e : Event wb) : State wb := { s with trace := s.trace ++ [e] }

/-- `fire_exception(reason)`, taking a fault: record the reason, call the panic handler, go to `Faulted` (R274). -/
def fireException (reason : FaultReason wb) (s : State wb) : State wb :=
  { s with run := .faulted reason }.emit (.panic reason)

/-- `check_access_else_fault(status)` (R272). -/
def checkAccessElseFault (st : AccessStatus) (s : State wb) : Bool × State wb :=
  match st with
  | .success _ => (true, s)
  | .fault kind addr access => (false, fireException (.accessFault kind addr access) s)

/-! ## Checked accesses -/

/-- `MemRead(addr, 1)`: `read` routed through the check (R9, R66). `none` says that the fault has been taken. -/
def memRead (c : Config wb) (a : Nat) (s : State wb) : Option Byte × State wb :=
  match Mmu.read c s a with
  | .success v => (v, (checkAccessElseFault (.success v) s).2)
  | .fault kind addr access => (none, (checkAccessElseFault (.fault kind addr access) s).2)

/-- `MemWrite(addr, 1, v)`: `write` routed through the check (R9, R66). `false` says that the fault has been taken. -/
def memWrite (c : Config wb) (a : Nat) (v : Byte) (s : State wb) : Bool × State wb :=
  let (st, s') := Mmu.write c s a v
  checkAccessElseFault st s'

/-- `MemRead(addr, n)`: byte reads in ascending order at addresses that do not wrap; the first failing one ends the
sequence (R67). -/
def memReadN (c : Config wb) : Nat → Nat → State wb → Option (List Byte) × State wb
  | 0, _, s => (some [], s)
  | n + 1, a, s =>
    match memRead c a s with
    | (none, s1) => (none, s1)
    | (some b, s1) =>
      match memReadN c n (a + 1) s1 with
      | (none, s2) => (none, s2)
      | (some bs, s2) => (some (b :: bs), s2)

/-- `MemWrite(addr, n, v)`, the bytes of `v` lowest address first: the bytes before a failing one stay written (R67). -/
def memWriteN (c : Config wb) : List Byte → Nat → State wb → Bool × State wb
  | [], _, s => (true, s)
  | b :: bs, a, s =>
    match memWrite c a b s with
    | (false, s1) => (false, s1)
    | (true, s1) => memWriteN c bs (a + 1) s1

/-! ## Running a body -/

/-- How a body ends: it returned normally, with the target it scheduled last and whether it called `halt`, or a fault
ended it (R149, R181). -/
inductive BodyResult (wb : Nat) where
  | completed (s : State wb) (sched : Option (Word wb)) (halting : Bool)
  | aborted (s : State wb)

/-- Run a body's calls in order against the live state (R181). `w` is the instruction word, `a` the instruction's address
(`rip()`, R186) and `t0` the `t_bit` at the start of the cycle (`inDelaySlot()`, R187); `sched` is the target scheduled so far,
the last one winning (R188), and `halting` whether `halt` has been called (R191). -/
def runBody (c : Config wb) (w : InsnWord) (a : Word wb) (t0 : Bool) :
    Body wb → State wb → Option (Word wb) → Bool → BodyResult wb
  | .done, s, sched, halting => .completed s sched halting
  | .reg i k, s, sched, halting => runBody c w a t0 (k (s.reg i)) s sched halting
  | .setReg i v k, s, sched, halting => runBody c w a t0 k (s.setReg i v) sched halting
  | .load addr k, s, sched, halting =>
    match memRead c addr.toNat s with
    | (some b, s') => runBody c w a t0 (k b) s' sched halting
    | (none, s') => .aborted s'
  | .store addr b k, s, sched, halting =>
    match memWrite c addr.toNat b s with
    | (true, s') => runBody c w a t0 k s' sched halting
    | (false, s') => .aborted s'
  | .rip k, s, sched, halting => runBody c w a t0 (k a) s sched halting
  | .inDelaySlot k, s, sched, halting => runBody c w a t0 (k t0) s sched halting
  | .schedule target k, s, _, halting => runBody c w a t0 k s (some target) halting
  | .intEnabled k, s, sched, halting => runBody c w a t0 (k s.enabled) s sched halting
  | .setIntEnabled b k, s, sched, halting => runBody c w a t0 k (s.setIntEnabled b) sched halting
  | .intret k, s, sched, halting => runBody c w a t0 (k s.intret) s sched halting
  | .setIntret v k, s, sched, halting => runBody c w a t0 k (s.setIntret v) sched halting
  | .halt k, s, sched, _ => runBody c w a t0 k s sched true
  | .undefined, s, _, _ => .aborted (fireException (.undefinedOpcode w a) s)
  | .undefinedBehavior what, s, _, _ => .aborted (fireException (.execFault what w a) s)

/-! ## The cycle -/

/-- The instruction pointer after a completed cycle (R150), from the values sampled at its start: the pending target if
there was one, else the next sequential address, which wraps (R156). -/
def advance (t0 : Bool) (n0 a : Word wb) : Word wb := if t0 then n0 else a + BitVec.ofNat wb insnBytes

/-- The end of a completed cycle (R148): advance (R150), record the pending transfer (R151), count (R152), keepalive (R153),
halt (R154). -/
def completeCycle (t0 : Bool) (n0 a : Word wb) (sched : Option (Word wb)) (halting : Bool) (s : State wb) : State wb :=
  let s1 := { s with rip := advance t0 n0 a }.recordTransfer sched
  let s2 := { s1 with executedOps := s1.executedOps + 1 }.emit .keepalive
  if halting then { s2 with run := .halted } else s2

/-- A cycle after its fetch: run the body and end the cycle (R148); a body that faulted ends it with no advance, no count
and no keepalive (R149). -/
def runCycle (c : Config wb) (w : InsnWord) (body : Body wb) (s : State wb) : State wb :=
  match runBody c w s.rip s.tBit body s none false with
  | .aborted s' => s'
  | .completed s' sched halting => completeCycle s.tBit s.nextRip s.rip sched halting s'

/-- `fetch_instruction_u32()` (R144): the word at `rip`, or none with the access fault taken. -/
def fetchInstruction (c : Config wb) (s : State wb) : Option InsnWord × State wb :=
  match memReadN c insnBytes s.rip.toNat s with
  | (some [b0, b1, b2, b3], s') =>
    let w := assembleWord c.fetchOrder b0 b1 b2 b3
    (some w, { s' with currentInstruction := some w })
  | (_, s') => (none, { s' with currentInstruction := none })

/-- One cycle, with what is to be done with the fetched word as a parameter: admitted only in `Running` (R146); a failing
fetch ends it (R147). -/
def cycleWith (c : Config wb) (run : InsnWord → State wb → Outcome wb) (s : State wb) : Outcome wb :=
  match s.run with
  | .idle => .refused .executeInIdle
  | .halted => .refused .executeInHalted
  | .faulted _ => .refused .executeInFaulted
  | .running =>
    match fetchInstruction c s with
    | (none, s') => .next s'
    | (some w, s') => run w s'

/-- `execute_single()` for any collaborator (R148): the whole word goes to `EXEC` (R102). -/
def executeSingle (c : Config wb) (exec : Exec wb) (s : State wb) : Outcome wb :=
  cycleWith c (fun w s' => .next (runCycle c w (exec w) s')) s

/-! ## Boot and interrupts -/

/-- What `boot()` writes: every field of R20 but memory (R142). -/
def bootState (c : Config wb) (now : HostTime) (s : State wb) : State wb :=
  { s with
    rip := entry wb
    nextRip := entry wb
    regs := Vector.replicate nregs 0
    enabled := false
    executedOps := 0
    startTimestamp := now
    tBit := false
    currentInstruction := none
    intret := c.intret0
    run := .running }

/-- `boot()`, admitted in `Idle` and, before any cycle has fetched, in `Running` (R143). -/
def boot (c : Config wb) (now : HostTime) (s : State wb) : Outcome wb :=
  match s.run, s.currentInstruction with
  | .idle, _ => .next (bootState c now s)
  | .running, none => .next (bootState c now s)
  | .running, some _ => .refused .rebootMidRun
  | .halted, _ => .refused .bootAfterEnd
  | .faulted _, _ => .refused .bootAfterEnd

/-- Interrupt entry (R282), taking an accepted interrupt: the resumption point goes to `intret`, interrupts are disabled and
the pointers go to the handler. `tBit` is the pending-transfer flag the entry leaves (R283). -/
def enterInterrupt (handler : Word wb) (tBit : Bool) (s : State wb) : State wb :=
  { s with intret := s.rip, enabled := false, rip := handler, nextRip := handler, tBit := tBit }

/-- Return from an interrupt (R287), through the primitives: go back to `intret` after one delay slot, and re-enable. -/
def returnFromInterrupt (k : Body wb) : Body wb :=
  .intret fun v => .schedule v (.setIntEnabled true k)

/-- `fire_interrupt(id)` with its answer (R281 to R284). -/
def fireInterrupt (c : Config wb) (id : Nat) (s : State wb) : Host.Outcome (Bool × State wb) Fault Refusal :=
  match c.handler id with
  | none => .refused .notAnInterruptId
  | some handler =>
    match s.run with
    | .running =>
      if s.enabled then
        if s.tBit then
          match c.intInDelaySlot with
          | .refuse => .refused .interruptInDelaySlot
          | .clear => .next (true, enterInterrupt handler false s)
          | .keep => .next (true, enterInterrupt handler true s)
        else .next (true, enterInterrupt handler false s)
      else .next (false, s)
    | _ => .refused .interruptNotRunning

/-! ## The host's calls -/

/-- One call of the host (R298), `cycle` being what `execute_single` does. The answer of `fire_interrupt` goes to the host. -/
def performCall (c : Config wb) (cycle : State wb → Outcome wb) (call : HostCall) (s : State wb) : Outcome wb :=
  match call with
  | .boot now => boot c now s
  | .executeSingle => cycle s
  | .fireInterrupt id =>
    match fireInterrupt c id s with
    | .next (answer, s') => .next { s' with replies := s'.replies ++ [answer] }
    | .fault f => .fault f
    | .refused r => .refused r

/-- One atomic step (R300): the host's next call, or, with none pending, `execute_single`, which the driver calls
repeatedly (R324, log 7). -/
def hostStep (c : Config wb) (cycle : State wb → Outcome wb) (s : State wb) : Outcome wb :=
  match s.host with
  | [] => cycle s
  | call :: rest => performCall c cycle call { s with host := rest }

/-- A step of the core for any configuration and any collaborator. -/
def coreStep (c : Config wb) (exec : Exec wb) (s : State wb) : Outcome wb := hostStep c (executeSingle c exec) s

/-- Lay a word where the next cycle fetches it, at `rip` in the configuration's byte order, and let the next step be that
cycle: `run = Running` and no other host call pending. It stands for the host's load (R72, log 6). -/
def placeWord (c : Config wb) (w : InsnWord) (s : State wb) : State wb :=
  { s with
    mem := Memory.place c.initMem c.memSize s.mem s.rip.toNat (wordBytes c.fetchOrder w)
    run := .running
    host := [] }

end Sys2Proof.Smol2
end

