-- ==== Sys2Proof/Machine/Cycle.lean ====
section
/-! DEFINITION. The one operation the meanings share: run a body as the cycle of the fixed machine's configuration
(42_test_isa.md R220; 40_core_cycle.md R148). -/

namespace Sys2Proof.Machine

/-- The part of `execute_single` after the fetch, for a TISA body: it always ends in a next state, a fault being taken
(R10, R149). The word is the instruction's own, which a fault would record (R271). -/
def runTisa (i : Instr) (body : Body tisaWordBits) (s : State) : Host.Outcome State Fault Refusal :=
  .next (Smol2.runCycle Config.tisa (encodeWord i) body s)

end Sys2Proof.Machine
end

