-- ==== Sys2Proof/Machine/Arith.lean ====
section
/-! DEFINITION. LI, SHB, ADD, SUB, ADDI: each instruction's body over the collaborator primitives, and its meaning. Word
arithmetic is modulo `2^16` (42_test_isa.md, section 2). -/

namespace Sys2Proof.Machine
open Sys2Proof.Smol2

/-- `LI rA, imm8`: `setReg(A, zext_16(I))` (R223). -/
def bodyLi (A : RegisterId) (I : Byte) : Body tisaWordBits := .setReg A (zext16 I) .done

/-- `SHB rA, imm8`: the old low byte becomes the high byte and `I` the low byte (R224). -/
def bodyShb (A : RegisterId) (I : Byte) : Body tisaWordBits :=
  .reg A fun v => .setReg A (((v <<< 8) &&& 0xFFFF) ||| zext16 I) .done

/-- `ADD rA, rB`: both reads come before the write (R225). -/
def bodyAdd (A B : RegisterId) : Body tisaWordBits :=
  .reg A fun s => .reg B fun t => .setReg A (s + t) .done

/-- `SUB rA, rB` (R226). -/
def bodySub (A B : RegisterId) : Body tisaWordBits :=
  .reg A fun s => .reg B fun t => .setReg A (s - t) .done

/-- `ADDI rA, simm8`: the immediate is sign-extended (R240). -/
def bodyAddi (A : RegisterId) (I : Byte) : Body tisaWordBits :=
  .reg A fun v => .setReg A (v + sext16 I) .done

/-- LI (R223). -/
def execLi (A : RegisterId) (I : Byte) (s : State) : Host.Outcome State Fault Refusal :=
  runTisa (.li A I) (bodyLi A I) s

/-- SHB (R224). -/
def execShb (A : RegisterId) (I : Byte) (s : State) : Host.Outcome State Fault Refusal :=
  runTisa (.shb A I) (bodyShb A I) s

/-- ADD (R225). -/
def execAdd (A B : RegisterId) (s : State) : Host.Outcome State Fault Refusal :=
  runTisa (.add A B) (bodyAdd A B) s

/-- SUB (R226). -/
def execSub (A B : RegisterId) (s : State) : Host.Outcome State Fault Refusal :=
  runTisa (.sub A B) (bodySub A B) s

/-- ADDI (R240). -/
def execAddi (A : RegisterId) (I : Byte) (s : State) : Host.Outcome State Fault Refusal :=
  runTisa (.addi A I) (bodyAddi A I) s

end Sys2Proof.Machine
end

