-- ==== Sys2Proof/Machine/Control.lean ====
section
/-! DEFINITION. NOP and HALT (42_test_isa.md R235, R236). -/

namespace Sys2Proof.Machine

/-- `NOP`: no primitive call (R235). -/
def bodyNop : Body tisaWordBits := .done

/-- `HALT`: `halt()` (R236). -/
def bodyHalt : Body tisaWordBits := .halt .done

/-- NOP (R235). -/
def execNop (s : State) : Host.Outcome State Fault Refusal := runTisa .nop bodyNop s

/-- HALT (R236). -/
def execHalt (s : State) : Host.Outcome State Fault Refusal := runTisa .halt bodyHalt s

end Sys2Proof.Machine
end

