-- ==== Sys2Proof/Machine/Interrupts.lean ====
section
/-! DEFINITION. EI, DI, RDI, RETI: the instructions on the interrupt state (42_test_isa.md R231 to R234). -/

namespace Sys2Proof.Machine
open Sys2Proof.Smol2

/-- `EI`: `setIntEnabled(true)` (R231). -/
def bodyEi : Body tisaWordBits := .setIntEnabled true .done

/-- `DI`: `setIntEnabled(false)` (R232). -/
def bodyDi : Body tisaWordBits := .setIntEnabled false .done

/-- `RDI rA`: `setReg(A, intret())` (R233). -/
def bodyRdi (A : RegisterId) : Body tisaWordBits := .intret fun v => .setReg A v .done

/-- `RETI`: the return from an interrupt (R234, R287). -/
def bodyReti : Body tisaWordBits := returnFromInterrupt .done

/-- EI (R231). -/
def execEi (s : State) : Host.Outcome State Fault Refusal := runTisa .ei bodyEi s

/-- DI (R232). -/
def execDi (s : State) : Host.Outcome State Fault Refusal := runTisa .di bodyDi s

/-- RDI (R233). -/
def execRdi (A : RegisterId) (s : State) : Host.Outcome State Fault Refusal := runTisa (.rdi A) (bodyRdi A) s

/-- RETI (R234). -/
def execReti (s : State) : Host.Outcome State Fault Refusal := runTisa .reti bodyReti s

end Sys2Proof.Machine
end

