-- ==== Sys2Proof/Machine/LoadStore.lean ====
section
/-! DEFINITION. LB and SB (42_test_isa.md R227, R228). -/

namespace Sys2Proof.Machine
open Sys2Proof.Smol2

/-- `LB rA, [rB]`: load byte, zero-extended; the address is read before `x[A]` is written (R227). -/
def bodyLb (A B : RegisterId) : Body tisaWordBits :=
  .reg B fun p => .load p fun v => .setReg A (zext16 v) .done

/-- `SB rA, [rB]`: store the low byte of `x[A]` at `x[B]` (R228). -/
def bodySb (A B : RegisterId) : Body tisaWordBits :=
  .reg B fun p => .reg A fun v => .store p (lowByte v) .done

/-- LB (R227). -/
def execLb (A B : RegisterId) (s : State) : Host.Outcome State Fault Refusal :=
  runTisa (.lb A B) (bodyLb A B) s

/-- SB (R228). -/
def execSb (A B : RegisterId) (s : State) : Host.Outcome State Fault Refusal :=
  runTisa (.sb A B) (bodySb A B) s

end Sys2Proof.Machine
end

