-- ==== Sys2Proof/Machine/Transfer.lean ====
section
/-! DEFINITION. JR, BZ, JALR: the delayed control transfers (42_test_isa.md R229, R230, R239). -/

namespace Sys2Proof.Machine
open Sys2Proof.Smol2

/-- `JR rA`: `schedule(reg(A))` (R229). -/
def bodyJr (A : RegisterId) : Body tisaWordBits := .reg A fun t => .schedule t .done

/-- `BZ rA, rB`: schedule `x[B]` if `x[A] = 0`, both read first (R230). -/
def bodyBz (A B : RegisterId) : Body tisaWordBits :=
  .reg A fun v => .reg B fun t => if v = 0 then .schedule t .done else .done

/-- `JALR rA, rB`: the target is read first, then the address after the delay slot is linked (R239). -/
def bodyJalr (A B : RegisterId) : Body tisaWordBits :=
  .reg B fun t => .rip fun a => .setReg A (a + 8) (.schedule t .done)

/-- JR (R229). -/
def execJr (A : RegisterId) (s : State) : Host.Outcome State Fault Refusal :=
  runTisa (.jr A) (bodyJr A) s

/-- BZ (R230). -/
def execBz (A B : RegisterId) (s : State) : Host.Outcome State Fault Refusal :=
  runTisa (.bz A B) (bodyBz A B) s

/-- JALR (R239). -/
def execJalr (A B : RegisterId) (s : State) : Host.Outcome State Fault Refusal :=
  runTisa (.jalr A B) (bodyJalr A B) s

end Sys2Proof.Machine
end

