-- ==== Sys2Proof/Machine/Collaborator.lean ====
section
/-! DEFINITION. TISA as a value of the parameter `EXEC` (41_collaborator.md R180, 42_test_isa.md R222), and the meaning of
EXEC-DISPATCH, which hands the whole word to it (30_encoding.md R102). TISA is the spec's test instantiation and NOT smol2's
instruction set (R4, D1). -/

namespace Sys2Proof.Machine

/-- TISA's `EXEC(w)`: the body of the row that matches `w`, and `undefined()` if none matches (R222). -/
def tisaExec : Exec tisaWordBits := fun w =>
  match decodeWord w with
  | .execDispatch _ => .undefined
  | .li A I => bodyLi A I
  | .shb A I => bodyShb A I
  | .add A B => bodyAdd A B
  | .sub A B => bodySub A B
  | .lb A B => bodyLb A B
  | .sb A B => bodySb A B
  | .jr A => bodyJr A
  | .bz A B => bodyBz A B
  | .ei => bodyEi
  | .di => bodyDi
  | .rdi A => bodyRdi A
  | .reti => bodyReti
  | .nop => bodyNop
  | .jalr A B => bodyJalr A B
  | .addi A I => bodyAddi A I
  | .halt => bodyHalt

/-- EXEC-DISPATCH: the whole word goes to `EXEC` (R102). For a word outside TISA the body is `undefined()`, and the fault
`UndefinedOpcode(w, rip)` is taken (R103, R192). -/
def execDispatch (w : InsnWord) (s : State) : Host.Outcome State Fault Refusal :=
  runTisa (.execDispatch w) (tisaExec w) s

end Sys2Proof.Machine
end

