-- ==== Sys2Proof/Machine/Dispatch.lean ====
section
/-! DEFINITION. The dispatch: one arm per constructor of Instr, each a direct call of its meaning. -/

namespace Sys2Proof.Machine

-- The cycle after its fetch (40_core_cycle.md R148): `exec i s` runs in a state whose word has been fetched (log 15).
def exec (i : Instr) (s : State) : Host.Outcome State Fault Refusal :=
  match i with
  | .execDispatch w => Sys2Proof.Machine.execDispatch w s
  | .li A I => Sys2Proof.Machine.execLi A I s
  | .shb A I => Sys2Proof.Machine.execShb A I s
  | .add A B => Sys2Proof.Machine.execAdd A B s
  | .sub A B => Sys2Proof.Machine.execSub A B s
  | .lb A B => Sys2Proof.Machine.execLb A B s
  | .sb A B => Sys2Proof.Machine.execSb A B s
  | .jr A => Sys2Proof.Machine.execJr A s
  | .bz A B => Sys2Proof.Machine.execBz A B s
  | .ei => Sys2Proof.Machine.execEi s
  | .di => Sys2Proof.Machine.execDi s
  | .rdi A => Sys2Proof.Machine.execRdi A s
  | .reti => Sys2Proof.Machine.execReti s
  | .nop => Sys2Proof.Machine.execNop s
  | .jalr A B => Sys2Proof.Machine.execJalr A B s
  | .addi A I => Sys2Proof.Machine.execAddi A I s
  | .halt => Sys2Proof.Machine.execHalt s

end Sys2Proof.Machine
end

