-- ==== Sys2Proof/Machine/Step.lean ====
section
/-! DEFINITION. One atomic step of the fixed machine (60_exceptions.md R300): the host's next call, `execute_single` being
fetch, decode, `exec` (40_core_cycle.md R148). -/

namespace Sys2Proof.Machine

/-- The step: the host's next call (R298), the fetched word being decoded and run. -/
def step (s : State) : Host.Outcome State Fault Refusal :=
  Smol2.hostStep Config.tisa (Smol2.cycleWith Config.tisa fun w t => exec (decodeWord w) t) s

/-- `s` with an instruction stored where `step` fetches its next one, `execute_single` being the host's next call and `run`
being `Running` (log 6). Bits from `nbits` up are 0; bit 0 is the word's least significant bit (R7). -/
def State.withFetchWord (s : State) (nbits w : Nat) : State :=
  Smol2.placeWord Config.tisa (BitVec.ofNat insnBits (w % 2 ^ nbits)) s

end Sys2Proof.Machine
end

