-- ==== Sys2Proof/Machine/Assembler.lean ====
section
/-! DEFINITION. The assembler's contract (30_encoding.md R107 to R118, 42_test_isa.md R238). The assembler is surrounding
software, not part of the hardware (C4); its contract fixes the bytes of the image the core runs. The tokenizer's lexical
grammar is out of scope (R4): the token stream is the input. -/

namespace Sys2Proof.Assembler

/-- `Context`, the assembler's position (R108). -/
structure Context where
  sourcePath : String
  line : Nat
  instructionOffset : Nat
deriving DecidableEq, Repr

/-- An operand byte: fully known, or the name of a label (R110). -/
inductive AsmByte where
  | known (b : Byte)
  | label (name : String)
deriving DecidableEq, Repr

/-- The closed set of token variants (R107). A mnemonic comes with the 4 bytes its instruction set's encoder, a parameter,
makes of it and its operands (R110). -/
inductive Token where
  | labelDecl (name : String)
  | mnemonic (b0 b1 b2 b3 : AsmByte)
  | selectOffset (n : Nat)
  | binaryInclude (bytes : List Byte)
  | finish
deriving DecidableEq, Repr

/-- What the tokenizer produces on demand: a token, or text that is none (R107, R113). -/
inductive Lexeme where
  | token (t : Token)
  | malformed
  | unrecognized
deriving DecidableEq, Repr

/-- `LabelDefinition` (R109). -/
structure Definition where
  context : Context
  name : String
  used : Bool
deriving DecidableEq, Repr

/-- `LabelUsage`, with the index of its placeholder byte (R110, D35). -/
structure Usage where
  context : Context
  name : String
  bitOffset : Nat
  offset : Nat
  overridden : Bool
deriving DecidableEq, Repr

/-- Why an assembly gives no image. Each names the context it was found in (R113). -/
inductive AsmError where
  /-- A malformed token (R107, R113). -/
  | lexical (c : Context)
  /-- An unrecognized token in the current context (R113). -/
  | unexpectedToken (c : Context)
  /-- The second declaration of a name (R109). -/
  | redefinition (c : Context) (name : String)
  /-- A `SelectOffset` that is not a multiple of 8 below `WORD_BITS`, which is refused (R111, D37). -/
  | badSelectOffset (c : Context) (n : Nat)
  /-- A usage whose name has no definition (R114). -/
  | unresolved (c : Context) (name : String)
  /-- Two usages with one recorded offset, which is refused (R116, D36). -/
  | overlappingUsages
deriving DecidableEq, Repr

/-- The state of the emit pass and, after it, of the link pass. -/
structure AsmState where
  context : Context
  output : List Byte
  definitions : List Definition
  usages : List Usage
  bitOffset : Nat
deriving DecidableEq, Repr

/-- The start of an assembly: offset 0, selection 0 (R108, R111). `line` is 0 before the first token: a DESIGN CHOICE, since
R108 and D39 give a start only for `instruction_offset` (log 26). -/
def AsmState.start (path : String) : AsmState := ⟨⟨path, 0, 0⟩, [], [], [], 0⟩

/-- `select_byte(address, bit_offset) = (address >> bit_offset) & 0xFF` (R115). -/
def selectByte (address bitOffset : Nat) : Byte := BitVec.ofNat 8 ((address >>> bitOffset) &&& 0xFF)

/-- Append one byte at the current offset and advance it. -/
def AsmState.emitByte (st : AsmState) (b : Byte) : AsmState :=
  { st with
    output := st.output ++ [b]
    context := { st.context with instructionOffset := st.context.instructionOffset + 1 } }

/-- Emit one operand byte: the literal byte, or the placeholder 0x00 with a usage recorded at its index (R110, D39). The
usage's context keeps the offset of the instruction it belongs to. -/
def AsmState.emitAsmByte (at_ : Context) (st : AsmState) : AsmByte → AsmState
  | .known b => st.emitByte b
  | .label name =>
    let usage : Usage := ⟨at_, name, st.bitOffset, st.context.instructionOffset, false⟩
    AsmState.emitByte { st with usages := st.usages ++ [usage] } 0

/-- The definition of a name, compared by equality (R109). -/
def lookup (ds : List Definition) (name : String) : Option Definition := ds.find? fun d => d.name == name

/-- May `n` be selected: a multiple of 8 with `0 <= n < WORD_BITS` (R111)? -/
def selectable (wordBits n : Nat) : Bool := n % 8 == 0 && n < wordBits

/-- One token of the emit pass. An error comes with the state at that point, unchanged but for the line (R109, R113). -/
def emitToken (wordBits : Nat) (st : AsmState) : Token → Except (AsmError × AsmState) AsmState
  | .labelDecl name =>
    match lookup st.definitions name with
    | some _ => .error (.redefinition st.context name, st)
    | none => .ok { st with definitions := st.definitions ++ [Definition.mk st.context name false] }
  | .mnemonic b0 b1 b2 b3 =>
    .ok ([b0, b1, b2, b3].foldl (AsmState.emitAsmByte st.context) st)
  | .selectOffset n =>
    if selectable wordBits n then .ok { st with bitOffset := n } else .error (.badSelectOffset st.context n, st)
  | .binaryInclude bytes => .ok (bytes.foldl AsmState.emitByte st)
  | .finish => .ok st

/-- The emit pass over the token stream, each item with its line; it ends at `finish`, or where the stream ends, and stops
at the first error (R107, R113). -/
def emit (wordBits : Nat) : AsmState → List (Nat × Lexeme) → Except (AsmError × AsmState) AsmState
  | st, [] => .ok st
  | st, (line, x) :: rest =>
    let here := { st with context := { st.context with line := line } }
    match x with
    | .malformed => .error (.lexical here.context, here)
    | .unrecognized => .error (.unexpectedToken here.context, here)
    | .token .finish => .ok here
    | .token t =>
      match emitToken wordBits here t with
      | .ok next => emit wordBits next rest
      | .error e => .error e

/-- Mark the definitions of a name as used (R114). -/
def markUsed (name : String) (ds : List Definition) : List Definition :=
  ds.map fun d => if d.name == name then { d with used := true } else d

/-- The link pass (R114): visit every usage; patch its byte if its name is defined, report it if not, and go on. The
usages come back with `overridden` as the pass leaves it. -/
def linkLabels : List Usage → List Byte → List Definition → List Byte × List Definition × List Usage × List AsmError
  | [], out, ds => (out, ds, [], [])
  | u :: us, out, ds =>
    match lookup ds u.name with
    | none =>
      let (out', ds', us', es) := linkLabels us out ds
      (out', ds', u :: us', .unresolved u.context u.name :: es)
    | some d =>
      let (out', ds', us', es) :=
        linkLabels us (out.set u.offset (selectByte d.context.instructionOffset u.bitOffset)) (markUsed u.name ds)
      (out', ds', { u with overridden := true } :: us', es)

/-- The usages' recorded offsets are all different (R116). -/
def disjointUsages (us : List Usage) : Bool := (us.map (·.offset)).Nodup

/-- Assemble (R118): the image, with the state the passes leave, or the errors and no image (R106). -/
def assemble (wordBits : Nat) (path : String) (toks : List (Nat × Lexeme)) :
    Except (List AsmError × AsmState) (List Byte × AsmState) :=
  match emit wordBits (AsmState.start path) toks with
  | .error (e, st) => .error ([e], st)
  | .ok st =>
    if disjointUsages st.usages then
      let (out, ds, us, es) := linkLabels st.usages st.output st.definitions
      let linked := { st with output := out, definitions := ds, usages := us }
      if es.isEmpty then .ok (out, linked) else .error (es, linked)
    else .error ([.overlappingUsages], st)

/-- Assemble, construct and load (R324, steps 1 to 3): no launch for a failed assembly (R106) or for an image that does not
fit (R73). -/
def launch {wb : Nat} (c : Config wb) (path : String) (toks : List (Nat × Lexeme)) : Option (Smol2.State wb) :=
  match assemble wb path toks with
  | .ok (image, _) => Smol2.construct c image
  | .error _ => none

/-! ## TISA's encoder (R238) -/

/-- A TISA statement: an instruction with known operands, or `li`, `shb`, `addi` with a label as the immediate (R238). -/
inductive TisaStatement where
  | plain (i : Instr)
  | liLabel (A : RegisterId) (name : String)
  | shbLabel (A : RegisterId) (name : String)
  | addiLabel (A : RegisterId) (name : String)
deriving DecidableEq, Repr

/-- The 4 bytes of a word in memory order as operand bytes, the `I` byte replaced by a label where there is one: byte 0
under `little`, byte 3 under `big` (R238). -/
def tisaBytes (o : FetchOrder) (w : InsnWord) (label : Option String) : Token :=
  let immediate := match label with
    | some name => AsmByte.label name
    | none => AsmByte.known (wordByte w 0)
  match o with
  | .little => .mnemonic immediate (.known (wordByte w 1)) (.known (wordByte w 2)) (.known (wordByte w 3))
  | .big => .mnemonic (.known (wordByte w 3)) (.known (wordByte w 2)) (.known (wordByte w 1)) immediate

/-- TISA's encoder: the mnemonic token of a statement (R238). -/
def tisaToken (o : FetchOrder) : TisaStatement → Token
  | .plain i => tisaBytes o (encodeWord i) none
  | .liLabel A name => tisaBytes o (encodeWord (.li A 0)) (some name)
  | .shbLabel A name => tisaBytes o (encodeWord (.shb A 0)) (some name)
  | .addiLabel A name => tisaBytes o (encodeWord (.addi A 0)) (some name)

end Sys2Proof.Assembler
end

