-- ==== Sys2Proof/Safety.lean ====
section
/-! DEFINITION. What counts as a good state of the core, in the terms the claims use. -/

namespace Sys2Proof.Smol2

variable {wb : Nat}

/-- The reasons of the `panic` events of a trace, oldest first. -/
def panics : List (Event wb) → List (FaultReason wb)
  | [] => []
  | .panic r :: rest => r :: panics rest
  | .keepalive :: rest => panics rest

/-- The number of `keepalive` events of a trace. -/
def keepalives : List (Event wb) → Nat
  | [] => 0
  | .panic _ :: rest => keepalives rest
  | .keepalive :: rest => keepalives rest + 1

/-- The reasons a run state says have been surfaced: none, or the one it is faulted with. -/
def RunState.reasons : RunState wb → List (FaultReason wb)
  | .faulted r => [r]
  | _ => []

/-- No cycle has been run since construction or boot: nothing counted, interrupts disabled, no transfer pending. -/
def State.Fresh (s : State wb) : Prop :=
  s.executedOps = 0 ∧ s.enabled = false ∧ s.tBit = false

/-- The invariant of the core, for any configuration: memory keeps its canonical form, which is the model's own choice of how
to hold the store of R40 and R60 (log 17); the trace holds exactly the panic of the fault the core is in (R274, R276; its start
is log 8); it holds one keepalive for each counted cycle (R152, R153); and before the first fetch the state is the one
construction or `boot` made (R141, R143). -/
structure State.Inv (c : Config wb) (s : State wb) : Prop where
  memory : Machine.Memory.wf c.initMem c.memSize s.mem
  panicOnce : panics s.trace = s.run.reasons
  counted : keepalives s.trace = s.executedOps
  idleFresh : s.run = .idle → s.Fresh
  bootFresh : s.run = .running → s.currentInstruction = none → s.Fresh

/-- The run has ended: `Halted` or `Faulted` (R158). -/
def RunState.ended : RunState wb → Bool
  | .halted => true
  | .faulted _ => true
  | _ => false

/-- What a body can observe, directly or through a later cycle: the state without the fields that R194 and R30 keep from it
and without the host's side. -/
def State.visible (s : State wb) : State wb :=
  { s with executedOps := 0, startTimestamp := 0, currentInstruction := none, trace := [], host := [], replies := [] }

/-- `n` steps of the core for any configuration and collaborator, ending at the first operation that has no step. -/
def coreRun (c : Config wb) (exec : Exec wb) : Nat → State wb → Outcome wb
  | 0, s => .next s
  | n + 1, s =>
    match coreStep c exec s with
    | .next t => coreRun c exec n t
    | .fault f => .fault f
    | .refused r => .refused r

/-- `n` calls of `execute_single()`, ending at the first one that has no step (R152). -/
def cycles (c : Config wb) (exec : Exec wb) : Nat → State wb → Outcome wb
  | 0, s => .next s
  | n + 1, s =>
    match executeSingle c exec s with
    | .next t => cycles c exec n t
    | .fault f => .fault f
    | .refused r => .refused r

end Sys2Proof.Smol2
end

