-- ==== Sys2Proof/Certificates/Slice0/Obligations.lean ====
section
/-! DEFINITION. The statements for the provers. Those about the core hold for every width of Word, every configuration and
every collaborator (00_scope.md R6: OPEN parameters); those about TISA are about the machine of the fixed names, whose
configuration is 42_test_isa.md R220. -/

open Sys2Proof Sys2Proof.Smol2 Sys2Proof.Machine

/-! ## Encoding -/

/-- Every well-formed instruction, with every operand, is what the decoder reads from its encoding, in either byte order
and whatever bytes follow. -/
def Obligations.DecodeOfEncodeIsIdentity : Prop :=
  ∀ i : Instr, i.wf = true →
    decodeWord (encodeWord i) = i ∧
    ∀ (o : FetchOrder) (rest : List Byte), decode o (encode o i ++ rest) = .ok (i, rest)

/-- Every word decodes to a well-formed instruction whose encoding is that word: no bit is dropped. -/
def Obligations.EncodeOfDecodeIsIdentity : Prop :=
  ∀ w : InsnWord, encodeWord (decodeWord w) = w ∧ (decodeWord w).wf = true

/-- R222: the decoder finds the one row of the table that matches the word under its mask, and a word of no row is
undefined; so is a word with a listed `op` and a nonzero unused field. -/
def Obligations.DecodeFollowsTheOpcodeTable : Prop :=
  (∀ w : InsnWord,
    (tisaRows.filter (·.covers w)).map (·.mnemonic) =
      match decodeWord w with
      | .execDispatch _ => []
      | i => [i.mnemonic]) ∧
  (∀ w : InsnWord, tisaDefines w = false → decodeWord w = .execDispatch w ∧ tisaExec w = .undefined) ∧
  (∀ w : InsnWord, fieldOp w = 0 ∨ (0x10 ≤ (fieldOp w).toNat ∧ (fieldOp w).toNat ≤ 0xFE) → tisaDefines w = false) ∧
  (∀ (i : Instr) (s : Machine.State), i.wf = true →
    exec i s = .next (runCycle Config.tisa (encodeWord i) (tisaExec (encodeWord i)) s)) ∧
  tisaDefines 0x00000000 = false ∧ tisaDefines 0x01100100 = false

/-- A few words written out from the rules' encoding lines decode to the instructions they stand for. -/
def Obligations.SpecWordsDecode : Prop :=
  decodeTableWord 32 0x0110002A = some (.li 1 0x2A) ∧ decodeTableWord 32 0x02100034 = some (.shb 1 0x34) ∧
  decodeTableWord 32 0x05120000 = some (.lb 1 2) ∧ decodeTableWord 32 0x06120000 = some (.sb 1 2) ∧
  decodeTableWord 32 0x0E650000 = some (.jalr 6 5) ∧ decodeTableWord 32 0x0F2000FF = some (.addi 2 0xFF) ∧
  decodeTableWord 32 0x0B700000 = some (.rdi 7) ∧ decodeTableWord 32 0xFF000000 = some .halt ∧
  decodeTableWord 32 0x01100100 = some (.execDispatch 0x01100100)

/-! ## Registers and memory -/

/-- R22: a register reads what was last written to it, and a write changes no other slot; slot 0 is like the others. -/
def Obligations.RegisterReadAfterWrite : Prop :=
  ∀ (wb : Nat) (s : Smol2.State wb) (i : RegisterId) (v : Word wb),
    (s.setReg i v).reg i = v ∧ ∀ j : RegisterId, j ≠ i → (s.setReg i v).reg j = s.reg j

/-- R63, for the base Mmu: a byte read checks bounds, then `PERMITS`, and then gives the Byte in the store. -/
def Obligations.MmuReadChecksBoundsThenPermission : Prop :=
  ∀ (wb : Nat) (c : Config wb) (s : Smol2.State wb) (a : Nat), c.BaseMmu →
    Mmu.read c s a =
      if a ≥ c.memSize then .fault .outOfBounds a .read
      else if c.permits a .read = false then .fault .protection a .read
      else .success (some (s.byteAt c a))

/-- R64 and R65, for the base Mmu: a byte write checks the same way, writes that Byte and no other, and on a fault there is no
mutation. -/
def Obligations.MmuWriteChangesOneByteOrNothing : Prop :=
  ∀ (wb : Nat) (c : Config wb) (s : Smol2.State wb) (a : Nat) (v : Byte), c.BaseMmu →
    (a ≥ c.memSize → Mmu.write c s a v = (.fault .outOfBounds a .write, s)) ∧
    (a < c.memSize → c.permits a .write = false → Mmu.write c s a v = (.fault .protection a .write, s)) ∧
    (a < c.memSize → c.permits a .write = true → ∃ t, Mmu.write c s a v = (.success none, t) ∧
      (∀ x, t.byteAt c x = if x = a then v else s.byteAt c x) ∧ t = { s with mem := t.mem })

/-- A multi-byte access (R67) is byte accesses at `a, a+1, ...`, without wrap. If every one passes, a read gives the Bytes and
a write lays them. The first failing one ends the sequence with its fault, the bytes a write laid before it stay written, and
no other byte changes; a byte address of `MEM_SIZE` or more always fails. That the earlier bytes stay written is the spec's own
inference (R67: "[derived: from rule R64 applied to each byte, and rule R65 applied to the failing byte only]"), and that the
access is made byte by byte its decision D9, which errs toward proving for writes (log 21). -/
def Obligations.MultiByteAccessStopsAtFirstFault : Prop :=
  ∀ (wb : Nat) (c : Config wb) (s : Smol2.State wb) (a : Nat),
    (∀ n : Nat,
      ((∀ k < n, Mmu.check c (a + k) .read = none) →
        ∃ bs : List Byte, memReadN c n a s = (some bs, s) ∧ bs.length = n ∧
          ∀ k < n, bs[k]? = some (s.byteAt c (a + k))) ∧
      (∀ k < n, ∀ kind, (∀ j < k, Mmu.check c (a + j) .read = none) → Mmu.check c (a + k) .read = some kind →
        memReadN c n a s = (none, fireException (.accessFault kind (a + k) .read) s))) ∧
    (∀ bs : List Byte,
      ((∀ k < bs.length, Mmu.check c (a + k) .write = none) →
        ∃ t, memWriteN c bs a s = (true, t) ∧ t = { s with mem := t.mem } ∧
          ∀ x, t.byteAt c x = if a ≤ x then (bs[x - a]?).getD (s.byteAt c x) else s.byteAt c x) ∧
      (∀ k < bs.length, ∀ kind, (∀ j < k, Mmu.check c (a + j) .write = none) →
        Mmu.check c (a + k) .write = some kind →
        ∃ t, memWriteN c bs a s = (false, t) ∧
          t = { fireException (.accessFault kind (a + k) .write) s with mem := t.mem } ∧
          ∀ x, t.byteAt c x = if a ≤ x ∧ x < a + k then (bs[x - a]?).getD (s.byteAt c x) else s.byteAt c x)) ∧
    ∀ (x : Nat) (k : Access), c.memSize ≤ x → Mmu.check c x k = some .outOfBounds

/-- Two stores in canonical form that read the same at every address are the same data. The canonical list of cells is the
model's own choice of how to hold the store of R40 and R60, which say nothing of it (log 17). -/
def Obligations.CanonicalMemoryIsUnique : Prop :=
  ∀ (fill : Nat → Byte) (size : Nat) (m n : List Host.Cell), Memory.wf fill size m → Memory.wf fill size n →
    (∀ a, Memory.get fill m a = Memory.get fill n a) → m = n

/-! ## Reset, boot and load -/

/-- An image that fits is laid at `LOAD_BASE` and every other Byte is `INIT_MEM`'s (R72), in the state `Idle` with registers
zero and no instruction (R141, R321); one that does not fit has no launch state (R73). That the store is held in canonical form
is the model's own choice (log 17). -/
def Obligations.ConstructLoadsTheImage : Prop :=
  ∀ (wb : Nat) (c : Config wb) (image : List Byte),
    (image.length ≤ c.memSize → ∃ s, construct c image = some s ∧
      (∀ k, s.byteAt c k = (image[k]?).getD (c.initMem k)) ∧ Memory.wf c.initMem c.memSize s.mem ∧
      s.run = .idle ∧ (∀ i : RegisterId, s.reg i = 0) ∧ s.currentInstruction = none) ∧
    (c.memSize < image.length → construct c image = none)

/-- R142: what `boot` leaves in every field, `intret` being the draw `INTRET0` and the timestamp the host's time; memory is
not touched. -/
def Obligations.BootInitialisesEveryField : Prop :=
  ∀ (wb : Nat) (c : Config wb) (now : HostTime) (s : Smol2.State wb),
    s.run = .idle ∨ (s.run = .running ∧ s.currentInstruction = none) →
    ∃ t, boot c now s = .next t ∧
      t.rip = 0 ∧ t.nextRip = 0 ∧ (∀ i : RegisterId, t.reg i = 0) ∧ t.enabled = false ∧ t.executedOps = 0 ∧
      t.startTimestamp = now ∧ t.tBit = false ∧ t.currentInstruction = none ∧ t.intret = c.intret0 ∧
      t.run = .running ∧ t.mem = s.mem

/-- R143: `boot` is admitted in `Idle`, and in `Running` before a cycle has fetched, and in no other state; and a second `boot`
gives the state the first one made, with a fresh timestamp. -/
def Obligations.BootAdmittedOnlyBeforeTheFirstCycle : Prop :=
  ∀ (wb : Nat) (c : Config wb) (now later : HostTime) (s : Smol2.State wb),
    ((∃ t, boot c now s = .next t) ↔ s.run = .idle ∨ (s.run = .running ∧ s.currentInstruction = none)) ∧
    ∀ t, boot c now s = .next t → boot c later t = .next { t with startTimestamp := later }

/-- R320: reset is construction followed by `boot`. The fixed machine's reset state is that of its configuration with no
image; `intret` is its `INTRET0` (the model's choice, log 4) and the timestamp 0 is the draw named in log 5. -/
def Obligations.ResetIsConstructionThenBoot : Prop :=
  ∃ s : Machine.State, construct Config.tisa [] = some s ∧
    boot Config.tisa State.reset.startTimestamp s = .next State.reset ∧
    State.reset.run = .running ∧ State.reset.rip = 0 ∧ State.reset.enabled = false ∧ State.reset.tBit = false ∧
    ∀ i : RegisterId, State.reset.reg i = 0

/-! ## Fetch and the cycle -/

/-- R145: how the 4 fetched Bytes form the word. -/
def Obligations.FetchOrderFormsTheWord : Prop :=
  ∀ b0 b1 b2 b3 : Byte,
    (assembleWord .little b0 b1 b2 b3).toNat =
      b0.toNat + b1.toNat * 2 ^ 8 + b2.toNat * 2 ^ 16 + b3.toNat * 2 ^ 24 ∧
    (assembleWord .big b0 b1 b2 b3).toNat =
      b0.toNat * 2 ^ 24 + b1.toNat * 2 ^ 16 + b2.toNat * 2 ^ 8 + b3.toNat

/-- For the base Mmu, a fetch (R144) reads `rip .. rip+3`, aligned or not and without wrap; it records the word, or takes the
fault of the first failing byte and records that there is none. That the fault records the first failing byte's address is a
choice (D33, log 19): I6 allows that address or `rip`. An extended Mmu's own check is left to FetchFailureEndsTheCycle. -/
def Obligations.FetchReadsFourBytesAtRip : Prop :=
  ∀ (wb : Nat) (c : Config wb) (s : Smol2.State wb), c.BaseMmu →
    (s.rip.toNat + 3 < c.memSize → (∀ k < 4, c.permits (s.rip.toNat + k) .read = true) →
      ∃ w : InsnWord, w = assembleWord c.fetchOrder (s.byteAt c s.rip.toNat) (s.byteAt c (s.rip.toNat + 1))
          (s.byteAt c (s.rip.toNat + 2)) (s.byteAt c (s.rip.toNat + 3)) ∧
        fetchInstruction c s = (some w, { s with currentInstruction := some w })) ∧
    (∀ k < 4, max s.rip.toNat c.memSize = s.rip.toNat + k →
      (∀ j < k, c.permits (s.rip.toNat + j) .read = true) →
      fetchInstruction c s = (none, { s with
        run := .faulted (.accessFault .outOfBounds (s.rip.toNat + k) .read),
        trace := s.trace ++ [.panic (.accessFault .outOfBounds (s.rip.toNat + k) .read)],
        currentInstruction := none })) ∧
    (∀ k < 4, s.rip.toNat + k < c.memSize → c.permits (s.rip.toNat + k) .read = false →
      (∀ j < k, c.permits (s.rip.toNat + j) .read = true) →
      fetchInstruction c s = (none, { s with
        run := .faulted (.accessFault .protection (s.rip.toNat + k) .read),
        trace := s.trace ++ [.panic (.accessFault .protection (s.rip.toNat + k) .read)],
        currentInstruction := none }))

/-- R146: `execute_single` has a step exactly in `Running`. -/
def Obligations.ExecuteSingleOnlyWhenRunning : Prop :=
  ∀ (wb : Nat) (c : Config wb) (E : Exec wb) (s : Smol2.State wb),
    (∃ t, executeSingle c E s = .next t) ↔ s.run = .running

/-- R147: if the fetch fails the cycle ends without further progress. -/
def Obligations.FetchFailureEndsTheCycle : Prop :=
  ∀ (wb : Nat) (c : Config wb) (E : Exec wb) (s : Smol2.State wb), s.run = .running →
    (fetchInstruction c s).1 = none →
    ∃ kind addr, executeSingle c E s = .next { s with
      run := .faulted (.accessFault kind addr .read),
      trace := s.trace ++ [.panic (.accessFault kind addr .read)],
      currentInstruction := none }

/-- R102 and R79: after a successful fetch the whole word, read from memory as it then is, goes to the collaborator,
whatever the collaborator is. -/
def Obligations.WholeWordGoesToTheCollaborator : Prop :=
  ∀ (wb : Nat) (c : Config wb) (E : Exec wb) (s : Smol2.State wb), s.run = .running →
    (∀ k < 4, Mmu.check c (s.rip.toNat + k) .read = none) →
    ∃ w : InsnWord, w = assembleWord c.fetchOrder (s.byteAt c s.rip.toNat) (s.byteAt c (s.rip.toNat + 1))
        (s.byteAt c (s.rip.toNat + 2)) (s.byteAt c (s.rip.toNat + 3)) ∧
      executeSingle c E s = .next (runCycle c w (E w) { s with currentInstruction := some w })

/-- R150, R151, R152, R153, R154: the end of a completed cycle, for any body: the pointer goes to the target pending at the
start, else to the next sequential address; the body's target becomes pending; one cycle is counted and one keepalive
emitted; and a halting cycle ends `Halted`, the others as they were. -/
def Obligations.CompletedCycleAdvancesCountsAndHalts : Prop :=
  ∀ (wb : Nat) (c : Config wb) (w : InsnWord) (b : Body wb) (s t : Smol2.State wb) (sched : Option (Word wb))
    (halting : Bool), runBody c w s.rip s.tBit b s none false = .completed t sched halting →
    runCycle c w b s = { t with
      rip := if s.tBit then s.nextRip else s.rip + 4#wb
      nextRip := sched.getD s.nextRip
      tBit := sched.isSome
      executedOps := s.executedOps + 1
      trace := s.trace ++ [.keepalive]
      run := if halting then .halted else s.run }

/-- A fault in a body ends the cycle: the pointers, the flag and the counter keep their values, no keepalive is emitted and
exactly one panic is; a write the body made before it stays, and the failing access changes nothing. What stays is the spec's
own choice (R149: "is the spec's choice"; D15, log 20). -/
def Obligations.BodyFaultEndsTheCycle : Prop :=
  (∀ (wb : Nat) (c : Config wb) (w : InsnWord) (b : Body wb) (s t : Smol2.State wb),
    runBody c w s.rip s.tBit b s none false = .aborted t →
    runCycle c w b s = t ∧ t.rip = s.rip ∧ t.nextRip = s.nextRip ∧ t.tBit = s.tBit ∧
    t.executedOps = s.executedOps ∧ t.currentInstruction = s.currentInstruction ∧
    ∃ r, t.run = .faulted r ∧ t.trace = s.trace ++ [.panic r]) ∧
  (∀ (wb : Nat) (c : Config wb) (w : InsnWord) (i : RegisterId) (v p : Word wb) (k : Byte → Body wb)
    (s : Smol2.State wb), c.memSize ≤ p.toNat →
    runCycle c w (.setReg i v (.load p k)) s = { s.setReg i v with
      run := .faulted (.accessFault .outOfBounds p.toNat .read)
      trace := s.trace ++ [.panic (.accessFault .outOfBounds p.toNat .read)] })

/-- R150 and R155, over two cycles of any collaborator: the cycle that schedules a transfer still goes to the next sequential
address (or to the transfer pending before it), the next instruction always runs, and control is then at the target; a
transfer scheduled in the delay slot is pending in its turn. -/
def Obligations.TransferTakesEffectAfterOneDelaySlot : Prop :=
  ∀ (wb : Nat) (c : Config wb) (E : Exec wb) (s t u : Smol2.State wb),
    executeSingle c E s = .next t → t.run = .running → executeSingle c E t = .next u → (∀ r, u.run ≠ .faulted r) →
    t.rip = (if s.tBit then s.nextRip else s.rip + 4#wb) ∧
    (t.tBit = true → u.rip = t.nextRip) ∧ (t.tBit = false → u.rip = t.rip + 4#wb ∧ t.nextRip = s.nextRip)

/-- R152 and R153: `n` calls of `execute_single` add exactly `n` to `executed_ops` and emit `n` keepalives, absent any fault; a
faulting cycle adds nothing and emits none. -/
def Obligations.EveryFaultFreeCycleIsCounted : Prop :=
  ∀ (wb : Nat) (c : Config wb) (E : Exec wb),
    (∀ (n : Nat) (s t : Smol2.State wb), cycles c E n s = .next t → (∀ r, t.run ≠ .faulted r) →
      t.executedOps = s.executedOps + n ∧ keepalives t.trace = keepalives s.trace + n) ∧
    ∀ (s t : Smol2.State wb) (r : FaultReason wb), executeSingle c E s = .next t → t.run = .faulted r →
      t.executedOps = s.executedOps ∧ keepalives t.trace = keepalives s.trace

/-- R188 and R191, for any state: the last target scheduled wins; calls after `halt` still run; and a fault after `halt`
wins. -/
def Obligations.LastTargetWinsAndFaultBeatsHalt : Prop :=
  ∀ (wb : Nat) (c : Config wb) (w : InsnWord) (s : Smol2.State wb) (T1 T2 v : Word wb) (i : RegisterId),
    (runCycle c w (.schedule T1 (.schedule T2 .done)) s).nextRip = T2 ∧
    (runCycle c w (.schedule T1 (.schedule T2 .done)) s).tBit = true ∧
    (runCycle c w (.halt (.setReg i v .done)) s).reg i = v ∧
    (runCycle c w (.halt (.setReg i v .done)) s).run = .halted ∧
    (runCycle c w (.halt .undefined) s).run = .faulted (.undefinedOpcode w s.rip) ∧
    (∀ what, (runCycle c w (.undefinedBehavior what) s).run = .faulted (.execFault what w s.rip))

/-- Whatever the collaborator does (R194), a cycle changes no timestamp and nothing of the host's side, and counts at most
itself; and it leaves memory in canonical form. The canonical form is the model's own choice (log 17), which R194 does not give,
and so are the host's script and replies (log 7). -/
def Obligations.NoCollaboratorReachesHostState : Prop :=
  ∀ (wb : Nat) (c : Config wb) (E : Exec wb) (s t : Smol2.State wb), executeSingle c E s = .next t →
    t.startTimestamp = s.startTimestamp ∧ t.host = s.host ∧ t.replies = s.replies ∧
    (t.executedOps = s.executedOps ∨ t.executedOps = s.executedOps + 1) ∧
    (Memory.wf c.initMem c.memSize s.mem → Memory.wf c.initMem c.memSize t.mem)

/-- No instruction of any collaborator can observe the counter, the timestamp, the recorded word, the trace or the host's side
(R194, R30): two states that differ only there are stepped to states that differ only there. The host's script and replies are
the model's own fields (log 7). -/
def Obligations.HiddenFieldsCannotBeObserved : Prop :=
  ∀ (wb : Nat) (c : Config wb) (E : Exec wb) (s s' t t' : Smol2.State wb), s.visible = s'.visible →
    executeSingle c E s = .next t → executeSingle c E s' = .next t' → t.visible = t'.visible

/-! ## Faults and the end of a run -/

/-- R272 and R274: a fault status is taken as a fault, unmaskably, and touches nothing but `run` and the trace; success
passes. -/
def Obligations.FaultIsTakenAndTouchesNothingElse : Prop :=
  ∀ (wb : Nat) (s : Smol2.State wb),
    (∀ v, checkAccessElseFault (.success v) s = (true, s)) ∧
    (∀ kind addr access, checkAccessElseFault (.fault kind addr access) s =
      (false, fireException (.accessFault kind addr access) s)) ∧
    ∀ r, fireException r s = { s with run := .faulted r, trace := s.trace ++ [.panic r] }

/-- R275 and R154: in `Faulted` and in `Halted` no operation of the host has a step. That the core then has no step at all is
said of the host's script, the model's own field (log 7). -/
def Obligations.FaultedAndHaltedAreTerminal : Prop :=
  ∀ (wb : Nat) (c : Config wb) (E : Exec wb) (s : Smol2.State wb), s.run.ended = true →
    (∀ t, executeSingle c E s ≠ .next t) ∧ (∀ now t, boot c now s ≠ .next t) ∧
    (∀ id t, fireInterrupt c id s ≠ .next t) ∧ ∀ t, coreStep c E s ≠ .next t

/-- In every run of every collaborator, from a loaded Core and under every script of host calls, at most one panic is
surfaced, and exactly when the core is `Faulted`. The spec marks R276 as its own inference ("[derived: from rules R272 and
R275]"); the script is the model's own (log 7). -/
def Obligations.AtMostOnePanicPerRun : Prop :=
  ∀ (wb : Nat) (c : Config wb) (E : Exec wb) (image : List Byte) (script : List HostCall) (n : Nat)
    (s t : Smol2.State wb), construct c image = some s → coreRun c E n { s with host := script } = .next t →
    (panics t.trace).length ≤ 1 ∧ panics t.trace = t.run.reasons ∧ keepalives t.trace = t.executedOps

/-! ## Interrupts -/

/-- R281 and R285: an interrupt fired while disabled answers false and changes nothing; it is not latched, and right after an
accepted interrupt a second one is ignored in this way. -/
def Obligations.DisabledInterruptIsIgnoredAndNotLatched : Prop :=
  ∀ (wb : Nat) (c : Config wb) (id : Nat) (entry : Word wb) (s : Smol2.State wb), c.handler id = some entry →
    (s.run = .running → s.enabled = false → fireInterrupt c id s = .next (false, s)) ∧
    ∀ (first : Nat) (t : Smol2.State wb), fireInterrupt c first s = .next (true, t) →
      fireInterrupt c id t = .next (false, t)

/-- R282: an enabled interrupt, with no transfer pending or under `Clear`: the resumption point is saved, interrupts are
disabled, the pointers go to the handler, no transfer is pending and nothing else changes; a disabled one answers false. -/
def Obligations.InterruptEntrySavesRipAndDisables : Prop :=
  ∀ (wb : Nat) (c : Config wb) (id : Nat) (entry : Word wb) (s : Smol2.State wb),
    c.handler id = some entry → s.run = .running →
    (s.enabled = true → s.tBit = false ∨ c.intInDelaySlot = .clear → fireInterrupt c id s =
      .next (true, { s with intret := s.rip, enabled := false, rip := entry, nextRip := entry, tBit := false })) ∧
    (s.enabled = false → fireInterrupt c id s = .next (false, s))

/-- R283: an enabled interrupt while a transfer is pending has no step under `Refuse`, loses the transfer under `Clear`, and
under `Keep` leaves `t_bit`, so that the handler's first instruction runs twice. -/
def Obligations.InterruptInDelaySlotFollowsItsParameter : Prop :=
  ∀ (wb : Nat) (c : Config wb) (id : Nat) (entry : Word wb) (s : Smol2.State wb),
    c.handler id = some entry → s.run = .running → s.enabled = true → s.tBit = true →
    (c.intInDelaySlot = .refuse → fireInterrupt c id s = .refused .interruptInDelaySlot) ∧
    (c.intInDelaySlot = .clear → fireInterrupt c id s =
      .next (true, { s with intret := s.rip, enabled := false, rip := entry, nextRip := entry, tBit := false })) ∧
    (c.intInDelaySlot = .keep → ∃ t, fireInterrupt c id s = .next (true, t) ∧
      t = { s with intret := s.rip, enabled := false, rip := entry, nextRip := entry } ∧
      ∀ (E : Exec wb) (u : Smol2.State wb), executeSingle c E t = .next u → (∀ r, u.run ≠ .faulted r) → u.rip = entry)

/-- R284: `fire_interrupt` has a step only in `Running`. -/
def Obligations.InterruptOnlyWhenRunning : Prop :=
  ∀ (wb : Nat) (c : Config wb) (id : Nat) (s : Smol2.State wb) (answer : Bool) (t : Smol2.State wb),
    fireInterrupt c id s = .next (answer, t) → s.run = .running ∧ t.run = .running ∧ answer = s.enabled

/-! ## The fixed machine -/

/-- The step runs the decoded instruction: when `execute_single` is the host's next call and the 4 bytes at `rip` lie in the
store and decode to an instruction, the step is `exec` of it in the state with the word recorded and that call taken off the
host's script. -/
def Obligations.StepRunsTheDecodedInstruction : Prop :=
  ∀ (s : Machine.State) (i : Instr), s.run = .running → s.rip.toNat + 3 < Config.tisa.memSize →
    decode Config.tisa.fetchOrder [s.byteAt Config.tisa s.rip.toNat, s.byteAt Config.tisa (s.rip.toNat + 1),
      s.byteAt Config.tisa (s.rip.toNat + 2), s.byteAt Config.tisa (s.rip.toNat + 3)] = .ok (i, []) →
    (s.host = [] → step s = exec i { s with currentInstruction := some (encodeWord i) }) ∧
    (∀ rest, s.host = .executeSingle :: rest →
      step s = exec i { s with host := rest, currentInstruction := some (encodeWord i) })

/-- R298 and R300: each call of the host is one step, `execute_single` being the one made when no other is pending; the answer
of `fire_interrupt` goes to the host. -/
def Obligations.HostCallsAreSteps : Prop :=
  ∀ (wb : Nat) (c : Config wb) (E : Exec wb) (s : Smol2.State wb),
    (s.host = [] → coreStep c E s = executeSingle c E s) ∧
    ∀ rest : List HostCall,
      (s.host = .executeSingle :: rest → coreStep c E s = executeSingle c E { s with host := rest }) ∧
      (∀ now, s.host = .boot now :: rest → coreStep c E s = boot c now { s with host := rest }) ∧
      (∀ id answer t, s.host = .fireInterrupt id :: rest →
        fireInterrupt c id { s with host := rest } = .next (answer, t) →
        coreStep c E s = .next { t with replies := t.replies ++ [answer] })

/-- A word placed where the next cycle fetches is the instruction the next step runs. The placing (`withFetchWord`, log 6) and
the probe `decodeTableWord` (log 24) are the model's own: R72 lets the host load an image at `LOAD_BASE` before `boot`, not lay a
word at `rip`. -/
def Obligations.PlacedWordIsTheNextInstruction : Prop :=
  ∀ (s : Machine.State) (w : InsnWord), s.rip.toNat + 3 < Config.tisa.memSize →
    decodeTableWord 32 w.toNat = some (decodeWord w) ∧
    step (s.withFetchWord 32 w.toNat) =
      exec (decodeWord w) { s.withFetchWord 32 w.toNat with currentInstruction := some w }

/-- The fixed machine is the core with the TISA configuration and TISA as its collaborator: decoding, dispatching and running
an instruction is handing the word to `EXEC`. -/
def Obligations.StepIsTheCoreWithTisa : Prop :=
  ∀ s : Machine.State, step s = coreStep Config.tisa tisaExec s

/-- No instruction stops the model: `exec` answers a next state for every instruction in every state (R10, R273: a fault is
taken, a next state). -/
def Obligations.EveryInstructionHasANextState : Prop :=
  ∀ (i : Instr) (s : Machine.State), ∃ t, exec i s = .next t ∧
    (t.run = s.run ∨ t.run = .halted ∨ ∃ r, t.run = .faulted r)

/-- The invariant holds at reset. The clause that memory is canonical is the model's own choice of how to hold the store
(log 17), which no rule gives; that the trace starts empty is read from the spec by inference (log 8). -/
def Obligations.ResetSatisfiesTheInvariant : Prop := (State.reset).Inv Config.tisa

/-- Every step of the fixed machine keeps the invariant: memory stays canonical, the trace holds exactly the panic of the
fault the core is in and one keepalive per counted cycle. The clause that memory is canonical is the model's own choice of how
to hold the store (log 17), which no rule gives; that the trace starts empty is read from the spec by inference (log 8). -/
def Obligations.StepKeepsTheInvariant : Prop :=
  ∀ s t : Machine.State, s.Inv Config.tisa → step s = .next t → t.Inv Config.tisa

/-- So does every step of the core, for every width, configuration and collaborator, and every call the host makes. The clause
that memory is canonical is the model's own choice of how to hold the store (log 17), which no rule gives; the trace's start is
an inference (log 8) and the host's script the model's own field (log 7). -/
def Obligations.EveryCollaboratorKeepsTheInvariant : Prop :=
  ∀ (wb : Nat) (c : Config wb) (E : Exec wb) (s t : Smol2.State wb), s.Inv c → coreStep c E s = .next t → t.Inv c

/-! ## TISA instruction by instruction -/

/-- R102, R103, R192: EXEC-DISPATCH hands its word to `EXEC`: for a word outside TISA `UndefinedOpcode(w, rip)` is taken and
nothing else changes, and for any other word it is the instruction the word stands for. That `rip`, `next_rip`, `t_bit` and the
counter keep their values in `Faulted` is the spec's own choice (R149: "is the spec's choice"; D15, log 20), of which I5 warns. -/
def Obligations.DispatchTakesUndefinedOpcode : Prop :=
  (∀ (w : InsnWord) (s : Machine.State), (Instr.execDispatch w).wf = true →
    exec (.execDispatch w) s = .next { s with
      run := .faulted (.undefinedOpcode w s.rip), trace := s.trace ++ [.panic (.undefinedOpcode w s.rip)] }) ∧
  ∀ (w : InsnWord) (s : Machine.State), exec (.execDispatch w) s = exec (decodeWord w) s

/-- R223. -/
def Obligations.LiLoadsZeroExtendedImmediate : Prop :=
  (∀ (A : RegisterId) (I : Byte) (s : Machine.State),
    (encodeWord (.li A I)).toNat = 0x01 * 2 ^ 24 + A.val * 2 ^ 20 + I.toNat ∧
    decodeWord (encodeWord (.li A I)) = .li A I ∧
    exec (.li A I) s = .next { s.setReg A (BitVec.ofNat 16 I.toNat) with
      rip := if s.tBit then s.nextRip else s.rip + 4, tBit := false
      executedOps := s.executedOps + 1, trace := s.trace ++ [.keepalive] }) ∧
  (∀ s : Machine.State, ∃ t, exec (decodeWord 0x0110002A) s = .next t ∧ t.reg 1 = 0x002A) ∧
  ∀ s : Machine.State, ∃ t, exec (decodeWord 0x011000FF) s = .next t ∧ t.reg 1 = 0x00FF

/-- R224. -/
def Obligations.ShbShiftsInTheByte : Prop :=
  (∀ (A : RegisterId) (I : Byte) (s : Machine.State),
    (encodeWord (.shb A I)).toNat = 0x02 * 2 ^ 24 + A.val * 2 ^ 20 + I.toNat ∧
    decodeWord (encodeWord (.shb A I)) = .shb A I ∧
    exec (.shb A I) s = .next
      { s.setReg A (BitVec.ofNat 16 ((s.reg A).toNat * 2 ^ 8 % 2 ^ 16 + I.toNat)) with
        rip := if s.tBit then s.nextRip else s.rip + 4, tBit := false
        executedOps := s.executedOps + 1, trace := s.trace ++ [.keepalive] }) ∧
  ∀ s : Machine.State, s.reg 1 = 0xAB12 → ∃ t, exec (decodeWord 0x02100034) s = .next t ∧ t.reg 1 = 0x1234

/-- R225. -/
def Obligations.AddWraps : Prop :=
  (∀ (A B : RegisterId) (s : Machine.State),
    (encodeWord (.add A B)).toNat = 0x03 * 2 ^ 24 + A.val * 2 ^ 20 + B.val * 2 ^ 16 ∧
    decodeWord (encodeWord (.add A B)) = .add A B ∧
    exec (.add A B) s = .next
      { s.setReg A (BitVec.ofNat 16 (((s.reg A).toNat + (s.reg B).toNat) % 2 ^ 16)) with
        rip := if s.tBit then s.nextRip else s.rip + 4, tBit := false
        executedOps := s.executedOps + 1, trace := s.trace ++ [.keepalive] }) ∧
  ∀ s : Machine.State, s.reg 1 = 0xFFFF → s.reg 2 = 1 →
    ∃ t, exec (decodeWord 0x03120000) s = .next t ∧ t.reg 1 = 0

/-- R226. -/
def Obligations.SubWraps : Prop :=
  (∀ (A B : RegisterId) (s : Machine.State),
    (encodeWord (.sub A B)).toNat = 0x04 * 2 ^ 24 + A.val * 2 ^ 20 + B.val * 2 ^ 16 ∧
    decodeWord (encodeWord (.sub A B)) = .sub A B ∧
    exec (.sub A B) s = .next
      { s.setReg A (BitVec.ofInt 16 ((s.reg A).toNat - (s.reg B).toNat)) with
        rip := if s.tBit then s.nextRip else s.rip + 4, tBit := false
        executedOps := s.executedOps + 1, trace := s.trace ++ [.keepalive] }) ∧
  ∀ s : Machine.State, s.reg 3 = 0 → s.reg 4 = 1 →
    ∃ t, exec (decodeWord 0x04340000) s = .next t ∧ t.reg 3 = 0xFFFF

/-- R240. -/
def Obligations.AddiAddsSignExtendedImmediate : Prop :=
  (∀ (A : RegisterId) (I : Byte) (s : Machine.State),
    (encodeWord (.addi A I)).toNat = 0x0F * 2 ^ 24 + A.val * 2 ^ 20 + I.toNat ∧
    decodeWord (encodeWord (.addi A I)) = .addi A I ∧
    exec (.addi A I) s = .next
      { s.setReg A (BitVec.ofInt 16 ((s.reg A).toNat + I.toInt)) with
        rip := if s.tBit then s.nextRip else s.rip + 4, tBit := false
        executedOps := s.executedOps + 1, trace := s.trace ++ [.keepalive] }) ∧
  (∀ s : Machine.State, s.reg 2 = 3 → ∃ t, exec (decodeWord 0x0F2000FF) s = .next t ∧ t.reg 2 = 2) ∧
  (∀ s : Machine.State, s.reg 2 = 0xFFFF → ∃ t, exec (decodeWord 0x0F200001) s = .next t ∧ t.reg 2 = 0)

/-- LB (R227): the Byte at `x[B]`, zero-extended, or the access fault with `x[A]` unchanged; the clause on `PERMITS` is for any
configuration that denies the read. That a fault keeps every other field too is the spec's own choice (R149: "is the spec's
choice"; D15, log 20). -/
def Obligations.LbLoadsByteOrFaults : Prop :=
  (∀ (A B : RegisterId) (s : Machine.State),
    (encodeWord (.lb A B)).toNat = 0x05 * 2 ^ 24 + A.val * 2 ^ 20 + B.val * 2 ^ 16 ∧
    decodeWord (encodeWord (.lb A B)) = .lb A B ∧
    ((s.reg B).toNat < 0x100 → exec (.lb A B) s = .next
      { s.setReg A (BitVec.ofNat 16 (BitVec.toNat (s.byteAt Config.tisa (s.reg B).toNat))) with
        rip := if s.tBit then s.nextRip else s.rip + 4, tBit := false
        executedOps := s.executedOps + 1, trace := s.trace ++ [.keepalive] }) ∧
    (0x100 ≤ (s.reg B).toNat → exec (.lb A B) s = .next { s with
      run := .faulted (.accessFault .outOfBounds (s.reg B).toNat .read)
      trace := s.trace ++ [.panic (.accessFault .outOfBounds (s.reg B).toNat .read)] })) ∧
  (∀ (c : Config 16) (w : InsnWord) (A B : RegisterId) (s : Machine.State), (s.reg B).toNat < c.memSize →
    c.permits (s.reg B).toNat .read = false → runCycle c w (bodyLb A B) s = { s with
      run := .faulted (.accessFault .protection (s.reg B).toNat .read)
      trace := s.trace ++ [.panic (.accessFault .protection (s.reg B).toNat .read)] }) ∧
  ∀ s : Machine.State, s.byteAt Config.tisa 0x40 = 0x9C → s.reg 2 = 0x0040 →
    ∃ t, exec (decodeWord 0x05120000) s = .next t ∧ t.reg 1 = 0x009C

/-- SB (R228): the low byte of `x[A]` is stored at `x[B]` and no other byte changes, or the access fault with memory unchanged;
the clause on `PERMITS` is for any configuration that denies the write. That a fault keeps every other field too is the spec's
own choice (R149: "is the spec's choice"; D15, log 20). -/
def Obligations.SbStoresLowByteOrFaults : Prop :=
  (∀ (A B : RegisterId) (s : Machine.State),
    (encodeWord (.sb A B)).toNat = 0x06 * 2 ^ 24 + A.val * 2 ^ 20 + B.val * 2 ^ 16 ∧
    decodeWord (encodeWord (.sb A B)) = .sb A B ∧
    ((s.reg B).toNat < 0x100 → ∃ t, exec (.sb A B) s = .next t ∧
      (∀ a, t.byteAt Config.tisa a =
        if a = (s.reg B).toNat then BitVec.ofNat 8 ((s.reg A).toNat % 2 ^ 8) else s.byteAt Config.tisa a) ∧
      t = { s with
        mem := t.mem
        rip := if s.tBit then s.nextRip else s.rip + 4, tBit := false
        executedOps := s.executedOps + 1, trace := s.trace ++ [.keepalive] }) ∧
    (0x100 ≤ (s.reg B).toNat → exec (.sb A B) s = .next { s with
      run := .faulted (.accessFault .outOfBounds (s.reg B).toNat .write)
      trace := s.trace ++ [.panic (.accessFault .outOfBounds (s.reg B).toNat .write)] })) ∧
  (∀ (c : Config 16) (w : InsnWord) (A B : RegisterId) (s : Machine.State), (s.reg B).toNat < c.memSize →
    c.permits (s.reg B).toNat .write = false → runCycle c w (bodySb A B) s = { s with
      run := .faulted (.accessFault .protection (s.reg B).toNat .write)
      trace := s.trace ++ [.panic (.accessFault .protection (s.reg B).toNat .write)] }) ∧
  ∀ s : Machine.State, s.reg 1 = 0x1234 → s.reg 2 = 0x0050 →
    ∃ t, exec (decodeWord 0x06120000) s = .next t ∧ t.byteAt Config.tisa 0x50 = 0x34

/-- R229. -/
def Obligations.JrSchedulesRegister : Prop :=
  (∀ (A : RegisterId) (s : Machine.State),
    (encodeWord (.jr A)).toNat = 0x07 * 2 ^ 24 + A.val * 2 ^ 20 ∧ decodeWord (encodeWord (.jr A)) = .jr A ∧
    exec (.jr A) s = .next { s with
      nextRip := s.reg A, tBit := true, rip := if s.tBit then s.nextRip else s.rip + 4
      executedOps := s.executedOps + 1, trace := s.trace ++ [.keepalive] }) ∧
  ∀ s : Machine.State, s.reg 5 = 0x40 → s.rip = 0x10 → s.tBit = false →
    ∃ t, exec (decodeWord 0x07500000) s = .next t ∧ t.rip = 0x14 ∧ t.nextRip = 0x40 ∧ t.tBit = true

/-- R230. -/
def Obligations.BzSchedulesOnlyOnZero : Prop :=
  (∀ (A B : RegisterId) (s : Machine.State),
    (encodeWord (.bz A B)).toNat = 0x08 * 2 ^ 24 + A.val * 2 ^ 20 + B.val * 2 ^ 16 ∧
    decodeWord (encodeWord (.bz A B)) = .bz A B ∧
    (s.reg A = 0 → exec (.bz A B) s = .next { s with
      nextRip := s.reg B, tBit := true, rip := if s.tBit then s.nextRip else s.rip + 4
      executedOps := s.executedOps + 1, trace := s.trace ++ [.keepalive] }) ∧
    (s.reg A ≠ 0 → exec (.bz A B) s = .next { s with
      tBit := false, rip := if s.tBit then s.nextRip else s.rip + 4
      executedOps := s.executedOps + 1, trace := s.trace ++ [.keepalive] })) ∧
  ∀ s : Machine.State, s.reg 1 = 0 → s.reg 5 = 0x30 → s.rip = 0x08 → s.tBit = false →
    ∃ t, exec (decodeWord 0x08150000) s = .next t ∧ t.rip = 0x0C ∧ t.nextRip = 0x30 ∧ t.tBit = true

/-- R239. -/
def Obligations.JalrLinksPastTheDelaySlot : Prop :=
  (∀ (A B : RegisterId) (s : Machine.State),
    (encodeWord (.jalr A B)).toNat = 0x0E * 2 ^ 24 + A.val * 2 ^ 20 + B.val * 2 ^ 16 ∧
    decodeWord (encodeWord (.jalr A B)) = .jalr A B ∧
    exec (.jalr A B) s = .next { s.setReg A (BitVec.ofNat 16 ((s.rip.toNat + 8) % 2 ^ 16)) with
      nextRip := s.reg B, tBit := true, rip := if s.tBit then s.nextRip else s.rip + 4
      executedOps := s.executedOps + 1, trace := s.trace ++ [.keepalive] }) ∧
  (∀ s : Machine.State, s.reg 5 = 0x60 → s.rip = 0x10 →
    ∃ t, exec (decodeWord 0x0E650000) s = .next t ∧ t.reg 6 = 0x18 ∧ t.nextRip = 0x60 ∧ t.tBit = true) ∧
  ∀ s : Machine.State, s.rip = 0xFFFC → ∃ t, exec (.jalr 6 5) s = .next t ∧ t.reg 6 = 0x0004

/-- R231 and R232: `EI` and `DI` write `enabled`, to take effect at the next cycle boundary. -/
def Obligations.EiAndDiSetTheEnable : Prop :=
  encodeWord .ei = 0x09000000 ∧ decodeWord 0x09000000 = .ei ∧
  encodeWord .di = 0x0A000000 ∧ decodeWord 0x0A000000 = .di ∧
  ∀ s : Machine.State,
    (∃ t, exec .ei s = .next t ∧ t = { s with
      enabled := true, tBit := false, rip := if s.tBit then s.nextRip else s.rip + 4
      executedOps := s.executedOps + 1, trace := s.trace ++ [.keepalive] } ∧
      (s.run = .running → ∀ id < 4, ∃ u, fireInterrupt Config.tisa id t = .next (true, u))) ∧
    (∃ t, exec .di s = .next t ∧ t = { s with
      enabled := false, tBit := false, rip := if s.tBit then s.nextRip else s.rip + 4
      executedOps := s.executedOps + 1, trace := s.trace ++ [.keepalive] } ∧
      (s.run = .running → ∀ id < 4, fireInterrupt Config.tisa id t = .next (false, t)))

/-- R233. -/
def Obligations.RdiReadsIntret : Prop :=
  (∀ (A : RegisterId) (s : Machine.State),
    (encodeWord (.rdi A)).toNat = 0x0B * 2 ^ 24 + A.val * 2 ^ 20 ∧ decodeWord (encodeWord (.rdi A)) = .rdi A ∧
    exec (.rdi A) s = .next { s.setReg A s.intret with
      tBit := false, rip := if s.tBit then s.nextRip else s.rip + 4
      executedOps := s.executedOps + 1, trace := s.trace ++ [.keepalive] }) ∧
  ∀ s : Machine.State, s.intret = 0x18 → ∃ t, exec (decodeWord 0x0B700000) s = .next t ∧ t.reg 7 = 0x18

/-- R234: `RETI` schedules `intret` and re-enables; in its delay-slot window an interrupt has no step under `Refuse`; and the
instruction after it brings control to the resumption point. -/
def Obligations.RetiReturnsAfterOneDelaySlot : Prop :=
  encodeWord .reti = 0x0C000000 ∧ decodeWord 0x0C000000 = .reti ∧
  ∀ s : Machine.State, ∃ t, exec .reti s = .next t ∧
    t = { s with
      nextRip := s.intret, tBit := true, enabled := true, rip := if s.tBit then s.nextRip else s.rip + 4
      executedOps := s.executedOps + 1, trace := s.trace ++ [.keepalive] } ∧
    (s.run = .running → ∀ id < 4, fireInterrupt Config.tisa id t = .refused .interruptInDelaySlot) ∧
    ∃ u, exec .nop t = .next u ∧ u.rip = s.intret ∧ u.enabled = true ∧ u.tBit = false

/-- R235. -/
def Obligations.NopOnlyAdvances : Prop :=
  encodeWord .nop = 0x0D000000 ∧ decodeWord 0x0D000000 = .nop ∧
  ∀ s : Machine.State, exec .nop s = .next { s with
    tBit := false, rip := if s.tBit then s.nextRip else s.rip + 4
    executedOps := s.executedOps + 1, trace := s.trace ++ [.keepalive] }

/-- R236. -/
def Obligations.HaltCompletesThenHalts : Prop :=
  encodeWord .halt = 0xFF000000 ∧ decodeWord 0xFF000000 = .halt ∧
  ∀ s : Machine.State, exec .halt s = .next { s with
    run := .halted, tBit := false, rip := if s.tBit then s.nextRip else s.rip + 4
    executedOps := s.executedOps + 1, trace := s.trace ++ [.keepalive] }

/-- The frame of every TISA instruction and of EXEC-DISPATCH for an undefined word: an instruction writes no register but
its `A`, and none at all unless it is one of LI, SHB, ADD, SUB, ADDI, LB, RDI, JALR; memory bytes change only under SB, and
only at `x[B]`; `enabled` changes only under EI, DI, RETI; `next_rip` only under JR, BZ, JALR, RETI; `run` only under HALT and
where a fault can be taken; `intret`, the timestamp, the recorded word and the host's side never. The host's script and
replies are the model's own fields (log 7). -/
def Obligations.InstructionFrame : Prop :=
  ∀ (i : Instr) (s t : Machine.State), i.wf = true → exec i s = .next t →
    (∀ j : RegisterId,
      (match i with
        | .li A _ | .shb A _ | .add A _ | .sub A _ | .addi A _ | .lb A _ | .rdi A | .jalr A _ => j ≠ A
        | _ => True) → t.reg j = s.reg j) ∧
    (∀ a : Nat,
      (match i with
        | .sb _ B => a ≠ (s.reg B).toNat
        | _ => True) → t.byteAt Config.tisa a = s.byteAt Config.tisa a) ∧
    ((match i with
        | .ei | .di | .reti => False
        | _ => True) → t.enabled = s.enabled) ∧
    ((match i with
        | .jr _ | .bz _ _ | .jalr _ _ | .reti => False
        | _ => True) → t.nextRip = s.nextRip) ∧
    ((match i with
        | .halt | .lb _ _ | .sb _ _ | .execDispatch _ => False
        | _ => True) → t.run = s.run) ∧
    t.intret = s.intret ∧ t.startTimestamp = s.startTimestamp ∧ t.currentInstruction = s.currentInstruction ∧
    t.host = s.host ∧ t.replies = s.replies

/-! ## The assembler's contract -/

/-- R115. -/
def Obligations.SelectByteTakesTheShiftedByte : Prop :=
  (∀ address bitOffset : Nat,
    (Assembler.selectByte address bitOffset).toNat = address / 2 ^ bitOffset % 256) ∧
  Assembler.selectByte 0x1234 0 = 0x34 ∧ Assembler.selectByte 0x1234 8 = 0x12

/-- R116: the order of the usages does not change the bytes, when no two of them have one offset. -/
def Obligations.LinkOrderIsIrrelevant : Prop :=
  ∀ (us vs : List Assembler.Usage) (out : List Byte) (ds : List Assembler.Definition), us.Perm vs →
    Assembler.disjointUsages us = true →
    (Assembler.linkLabels us out ds).1 = (Assembler.linkLabels vs out ds).1

/-- R118 and R106: an assembly gives an image exactly when the emit pass raised no error, no two usages overlap (R116) and
every usage has a definition; the image is the link pass's output; and a failed assembly has no launch. -/
def Obligations.AssemblySucceedsIffEverythingResolves : Prop :=
  ∀ (wordBits : Nat) (path : String) (toks : List (Nat × Assembler.Lexeme)),
    ((∃ r, Assembler.assemble wordBits path toks = .ok r) ↔
      ∃ st, Assembler.emit wordBits (Assembler.AsmState.start path) toks = .ok st ∧
        Assembler.disjointUsages st.usages = true ∧ ∀ u ∈ st.usages, ∃ d ∈ st.definitions, d.name = u.name) ∧
    (∀ r st, Assembler.assemble wordBits path toks = .ok r →
      Assembler.emit wordBits (Assembler.AsmState.start path) toks = .ok st →
      r.1 = (Assembler.linkLabels st.usages st.output st.definitions).1) ∧
    ∀ c : Config wordBits, (∀ r, Assembler.assemble wordBits path toks ≠ .ok r) →
      Assembler.launch c path toks = none
end

