-- ==== Sys2Proof/Laws/Decode.lean ====
section
/-! SUPPORT. The fields of a format T word, the bytes of a word, and the register fields: what a decoding proof cites. -/

namespace Sys2Proof

/-- Concatenation as arithmetic: the high part is shifted up by the low part's width. -/
theorem toNat_append_add {m n : Nat} (x : BitVec m) (y : BitVec n) :
    (x ++ y).toNat = x.toNat * 2 ^ n + y.toNat := by
  rw [BitVec.toNat_append, ← Nat.shiftLeft_add_eq_or_of_lt y.isLt, Nat.shiftLeft_eq]

/-- A field as arithmetic. -/
theorem toNat_extractLsb'_div {n : Nat} (x : BitVec n) (start len : Nat) :
    (x.extractLsb' start len).toNat = x.toNat / 2 ^ start % 2 ^ len := by
  rw [BitVec.extractLsb'_toNat, Nat.shiftRight_eq_div_pow]

/-- A format T word as a number (R221). -/
theorem toNat_formatT (op : BitVec 8) (A B : BitVec 4) (I : Byte) :
    (formatT op A B I).toNat =
      op.toNat * 16777216 + A.toNat * 1048576 + B.toNat * 65536 + BitVec.toNat I := by
  simp only [formatT, toNat_append_add]
  simp; omega

@[simp] theorem fieldOp_formatT (op : BitVec 8) (A B : BitVec 4) (I : Byte) : fieldOp (formatT op A B I) = op := by
  apply BitVec.eq_of_toNat_eq
  have := op.isLt; have := A.isLt; have := B.isLt; have := BitVec.isLt I
  simp only [fieldOp, toNat_extractLsb'_div, toNat_formatT]
  simp; omega

@[simp] theorem fieldA_formatT (op : BitVec 8) (A B : BitVec 4) (I : Byte) : fieldA (formatT op A B I) = A := by
  apply BitVec.eq_of_toNat_eq
  have := op.isLt; have := A.isLt; have := B.isLt; have := BitVec.isLt I
  simp only [fieldA, toNat_extractLsb'_div, toNat_formatT]
  simp; omega

@[simp] theorem fieldB_formatT (op : BitVec 8) (A B : BitVec 4) (I : Byte) : fieldB (formatT op A B I) = B := by
  apply BitVec.eq_of_toNat_eq
  have := op.isLt; have := A.isLt; have := B.isLt; have := BitVec.isLt I
  simp only [fieldB, toNat_extractLsb'_div, toNat_formatT]
  simp; omega

@[simp] theorem fieldZ_formatT (op : BitVec 8) (A B : BitVec 4) (I : Byte) : fieldZ (formatT op A B I) = 0 := by
  apply BitVec.eq_of_toNat_eq
  have := op.isLt; have := A.isLt; have := B.isLt; have := BitVec.isLt I
  simp only [fieldZ, toNat_extractLsb'_div, toNat_formatT]
  simp; omega

@[simp] theorem fieldI_formatT (op : BitVec 8) (A B : BitVec 4) (I : Byte) : fieldI (formatT op A B I) = I := by
  apply BitVec.eq_of_toNat_eq
  have := op.isLt; have := A.isLt; have := B.isLt; have := BitVec.isLt I
  simp only [fieldI, toNat_extractLsb'_div, toNat_formatT]
  simp; omega

@[simp] theorem registerOf_fieldOf (r : RegisterId) : registerOf (fieldOf r) = r := by
  revert r; decide

@[simp] theorem fieldOf_registerOf (f : BitVec 4) : fieldOf (registerOf f) = f := by
  revert f; decide

/-- A word is the format T word of its own fields when `Z` is zero. -/
theorem formatT_fields (w : InsnWord) (h : fieldZ w = 0) :
    formatT (fieldOp w) (fieldA w) (fieldB w) (fieldI w) = w := by
  apply BitVec.eq_of_toNat_eq
  have hz : (fieldZ w).toNat = 0 := by rw [h]; rfl
  have hw : w.toNat < 4294967296 := w.isLt
  rw [toNat_formatT]
  simp only [fieldZ, fieldOp, fieldA, fieldB, fieldI, toNat_extractLsb'_div] at hz ⊢
  omega

/-- A word is its 4 bytes, the least significant one last. -/
theorem wordByte_append (w : InsnWord) :
    wordByte w 3 ++ wordByte w 2 ++ wordByte w 1 ++ wordByte w 0 = w := by
  apply BitVec.eq_of_toNat_eq
  have hw : w.toNat < 4294967296 := w.isLt
  simp only [wordByte, toNat_append_add, toNat_extractLsb'_div]
  simp; omega

/-- Decoding the bytes of a word, in either order, decodes the word (R145). -/
theorem decode_wordBytes (o : FetchOrder) (w : InsnWord) (rest : List Byte) :
    decode o (wordBytes o w ++ rest) = .ok (decodeWord w, rest) := by
  cases o <;> simp only [wordBytes, decode, assembleWord, List.cons_append, List.nil_append] <;>
    exact congrArg (fun x => Except.ok (decodeWord x, rest)) (wordByte_append w)

/-- The instruction of a table word of full width. -/
theorem decodeTableWord_full (w : InsnWord) : decodeTableWord 32 w.toNat = some (decodeWord w) := by
  have hw : w.toNat % 2 ^ 32 = w.toNat := Nat.mod_eq_of_lt w.isLt
  have h := decode_wordBytes .little w []
  rw [List.append_nil] at h
  simp only [decodeTableWord, hw, Nat.le_refl, if_true, BitVec.ofNat_toNat, BitVec.setWidth_eq, h]

/-! ## The rows of the decode table in terms of the fields -/

/-- A word is the concatenation of its fields (R221). -/
theorem word_eq_fields (w : InsnWord) : w = fieldOp w ++ fieldA w ++ fieldB w ++ fieldZ w ++ fieldI w := by
  apply BitVec.eq_of_toNat_eq
  have hw : w.toNat < 4294967296 := w.isLt
  simp only [fieldOp, fieldA, fieldB, fieldZ, fieldI, toNat_append_add, toNat_extractLsb'_div]
  simp; omega

/-- Concatenations of the same widths are equal only part by part. -/
theorem append_injective {m n : Nat} {x x' : BitVec m} {y y' : BitVec n} (h : x ++ y = x' ++ y') : x = x' ∧ y = y' := by
  have h' := congrArg BitVec.toNat h
  rw [toNat_append_add, toNat_append_add] at h'
  have hy : y.toNat = y'.toNat := by
    have := congrArg (· % 2 ^ n) h'
    simpa [Nat.add_mod, Nat.mod_eq_of_lt y.isLt, Nat.mod_eq_of_lt y'.isLt] using this
  refine ⟨BitVec.eq_of_toNat_eq ?_, BitVec.eq_of_toNat_eq hy⟩
  rw [hy] at h'
  exact Nat.eq_of_mul_eq_mul_right (Nat.two_pow_pos n) (Nat.add_right_cancel h')

/-- A masked word is compared field by field. -/
theorem and_eq_iff_fields (w : InsnWord) (mo po : BitVec 8) (ma mb pa pb : BitVec 4) (mz mi pz pi : BitVec 8) :
    w &&& (mo ++ ma ++ mb ++ mz ++ mi) = po ++ pa ++ pb ++ pz ++ pi ↔
      fieldOp w &&& mo = po ∧ fieldA w &&& ma = pa ∧ fieldB w &&& mb = pb ∧ fieldZ w &&& mz = pz ∧
        fieldI w &&& mi = pi := by
  conv => lhs; rw [word_eq_fields w]
  rw [BitVec.and_append, BitVec.and_append, BitVec.and_append, BitVec.and_append]
  constructor
  · intro h
    obtain ⟨h, h5⟩ := append_injective h
    obtain ⟨h, h4⟩ := append_injective h
    obtain ⟨h, h3⟩ := append_injective h
    obtain ⟨h1, h2⟩ := append_injective h
    exact ⟨h1, h2, h3, h4, h5⟩
  · rintro ⟨h1, h2, h3, h4, h5⟩; rw [h1, h2, h3, h4, h5]

theorem and_ones8 (x : BitVec 8) : x &&& 0xFF#8 = x := by revert x; decide
theorem and_ones4 (x : BitVec 4) : x &&& 0xF#4 = x := by revert x; decide

theorem fieldOp_eq_iff (w : InsnWord) (o : BitVec 8) : fieldOp w = o ↔ (fieldOp w).toNat = o.toNat :=
  ⟨fun h => by rw [h], BitVec.eq_of_toNat_eq⟩

/-- The mask of the rows whose fields used are A and I (R222). -/
theorem maskAI_iff (w p : InsnWord) (o : BitVec 8) (hp : p = o ++ 0#4 ++ 0#4 ++ 0#8 ++ 0#8) :
    w &&& 0xFF0FFF00 = p ↔ (fieldOp w).toNat = o.toNat ∧ fieldB w = 0 ∧ fieldZ w = 0 := by
  have hm : (0xFF0FFF00 : InsnWord) = 0xFF#8 ++ 0#4 ++ 0xF#4 ++ 0xFF#8 ++ 0#8 := rfl
  rw [hm, hp, and_eq_iff_fields]
  simp [and_ones8, and_ones4, ← fieldOp_eq_iff]

/-- The mask of the rows whose fields used are A and B (R222). -/
theorem maskAB_iff (w p : InsnWord) (o : BitVec 8) (hp : p = o ++ 0#4 ++ 0#4 ++ 0#8 ++ 0#8) :
    w &&& 0xFF00FFFF = p ↔ (fieldOp w).toNat = o.toNat ∧ fieldZ w = 0 ∧ fieldI w = 0 := by
  have hm : (0xFF00FFFF : InsnWord) = 0xFF#8 ++ 0#4 ++ 0#4 ++ 0xFF#8 ++ 0xFF#8 := rfl
  rw [hm, hp, and_eq_iff_fields]
  simp [and_ones8, ← fieldOp_eq_iff]

/-- The mask of the rows whose fields used are A (R222). -/
theorem maskA_iff (w p : InsnWord) (o : BitVec 8) (hp : p = o ++ 0#4 ++ 0#4 ++ 0#8 ++ 0#8) :
    w &&& 0xFF0FFFFF = p ↔ (fieldOp w).toNat = o.toNat ∧ fieldB w = 0 ∧ fieldZ w = 0 ∧ fieldI w = 0 := by
  have hm : (0xFF0FFFFF : InsnWord) = 0xFF#8 ++ 0#4 ++ 0xF#4 ++ 0xFF#8 ++ 0xFF#8 := rfl
  rw [hm, hp, and_eq_iff_fields]
  simp [and_ones8, and_ones4, ← fieldOp_eq_iff]

/-- The mask of the rows whose fields used are none (R222). -/
theorem maskNone_iff (w p : InsnWord) (o : BitVec 8) (hp : p = o ++ 0#4 ++ 0#4 ++ 0#8 ++ 0#8) :
    w &&& 0xFFFFFFFF = p ↔ (fieldOp w).toNat = o.toNat ∧ fieldA w = 0 ∧ fieldB w = 0 ∧ fieldZ w = 0 ∧ fieldI w = 0 := by
  have hm : (0xFFFFFFFF : InsnWord) = 0xFF#8 ++ 0xF#4 ++ 0xF#4 ++ 0xFF#8 ++ 0xFF#8 := rfl
  rw [hm, hp, and_eq_iff_fields]
  simp [and_ones8, and_ones4, ← fieldOp_eq_iff]

/-! Each row of R222, as a condition on the fields. -/

theorem covers_LI (w : InsnWord) : (OpcodeRow.mk "LI" 0xFF0FFF00 0x01000000).covers w =
    decide ((fieldOp w).toNat = 0x01 ∧ fieldB w = 0 ∧ fieldZ w = 0) := by
  rw [OpcodeRow.covers, Bool.beq_eq_decide_eq, decide_eq_decide]; exact maskAI_iff w _ 0x01 rfl
theorem covers_SHB (w : InsnWord) : (OpcodeRow.mk "SHB" 0xFF0FFF00 0x02000000).covers w =
    decide ((fieldOp w).toNat = 0x02 ∧ fieldB w = 0 ∧ fieldZ w = 0) := by
  rw [OpcodeRow.covers, Bool.beq_eq_decide_eq, decide_eq_decide]; exact maskAI_iff w _ 0x02 rfl
theorem covers_ADD (w : InsnWord) : (OpcodeRow.mk "ADD" 0xFF00FFFF 0x03000000).covers w =
    decide ((fieldOp w).toNat = 0x03 ∧ fieldZ w = 0 ∧ fieldI w = 0) := by
  rw [OpcodeRow.covers, Bool.beq_eq_decide_eq, decide_eq_decide]; exact maskAB_iff w _ 0x03 rfl
theorem covers_SUB (w : InsnWord) : (OpcodeRow.mk "SUB" 0xFF00FFFF 0x04000000).covers w =
    decide ((fieldOp w).toNat = 0x04 ∧ fieldZ w = 0 ∧ fieldI w = 0) := by
  rw [OpcodeRow.covers, Bool.beq_eq_decide_eq, decide_eq_decide]; exact maskAB_iff w _ 0x04 rfl
theorem covers_LB (w : InsnWord) : (OpcodeRow.mk "LB" 0xFF00FFFF 0x05000000).covers w =
    decide ((fieldOp w).toNat = 0x05 ∧ fieldZ w = 0 ∧ fieldI w = 0) := by
  rw [OpcodeRow.covers, Bool.beq_eq_decide_eq, decide_eq_decide]; exact maskAB_iff w _ 0x05 rfl
theorem covers_SB (w : InsnWord) : (OpcodeRow.mk "SB" 0xFF00FFFF 0x06000000).covers w =
    decide ((fieldOp w).toNat = 0x06 ∧ fieldZ w = 0 ∧ fieldI w = 0) := by
  rw [OpcodeRow.covers, Bool.beq_eq_decide_eq, decide_eq_decide]; exact maskAB_iff w _ 0x06 rfl
theorem covers_JR (w : InsnWord) : (OpcodeRow.mk "JR" 0xFF0FFFFF 0x07000000).covers w =
    decide ((fieldOp w).toNat = 0x07 ∧ fieldB w = 0 ∧ fieldZ w = 0 ∧ fieldI w = 0) := by
  rw [OpcodeRow.covers, Bool.beq_eq_decide_eq, decide_eq_decide]; exact maskA_iff w _ 0x07 rfl
theorem covers_BZ (w : InsnWord) : (OpcodeRow.mk "BZ" 0xFF00FFFF 0x08000000).covers w =
    decide ((fieldOp w).toNat = 0x08 ∧ fieldZ w = 0 ∧ fieldI w = 0) := by
  rw [OpcodeRow.covers, Bool.beq_eq_decide_eq, decide_eq_decide]; exact maskAB_iff w _ 0x08 rfl
theorem covers_EI (w : InsnWord) : (OpcodeRow.mk "EI" 0xFFFFFFFF 0x09000000).covers w =
    decide ((fieldOp w).toNat = 0x09 ∧ fieldA w = 0 ∧ fieldB w = 0 ∧ fieldZ w = 0 ∧ fieldI w = 0) := by
  rw [OpcodeRow.covers, Bool.beq_eq_decide_eq, decide_eq_decide]; exact maskNone_iff w _ 0x09 rfl
theorem covers_DI (w : InsnWord) : (OpcodeRow.mk "DI" 0xFFFFFFFF 0x0A000000).covers w =
    decide ((fieldOp w).toNat = 0x0A ∧ fieldA w = 0 ∧ fieldB w = 0 ∧ fieldZ w = 0 ∧ fieldI w = 0) := by
  rw [OpcodeRow.covers, Bool.beq_eq_decide_eq, decide_eq_decide]; exact maskNone_iff w _ 0x0A rfl
theorem covers_RDI (w : InsnWord) : (OpcodeRow.mk "RDI" 0xFF0FFFFF 0x0B000000).covers w =
    decide ((fieldOp w).toNat = 0x0B ∧ fieldB w = 0 ∧ fieldZ w = 0 ∧ fieldI w = 0) := by
  rw [OpcodeRow.covers, Bool.beq_eq_decide_eq, decide_eq_decide]; exact maskA_iff w _ 0x0B rfl
theorem covers_RETI (w : InsnWord) : (OpcodeRow.mk "RETI" 0xFFFFFFFF 0x0C000000).covers w =
    decide ((fieldOp w).toNat = 0x0C ∧ fieldA w = 0 ∧ fieldB w = 0 ∧ fieldZ w = 0 ∧ fieldI w = 0) := by
  rw [OpcodeRow.covers, Bool.beq_eq_decide_eq, decide_eq_decide]; exact maskNone_iff w _ 0x0C rfl
theorem covers_NOP (w : InsnWord) : (OpcodeRow.mk "NOP" 0xFFFFFFFF 0x0D000000).covers w =
    decide ((fieldOp w).toNat = 0x0D ∧ fieldA w = 0 ∧ fieldB w = 0 ∧ fieldZ w = 0 ∧ fieldI w = 0) := by
  rw [OpcodeRow.covers, Bool.beq_eq_decide_eq, decide_eq_decide]; exact maskNone_iff w _ 0x0D rfl
theorem covers_JALR (w : InsnWord) : (OpcodeRow.mk "JALR" 0xFF00FFFF 0x0E000000).covers w =
    decide ((fieldOp w).toNat = 0x0E ∧ fieldZ w = 0 ∧ fieldI w = 0) := by
  rw [OpcodeRow.covers, Bool.beq_eq_decide_eq, decide_eq_decide]; exact maskAB_iff w _ 0x0E rfl
theorem covers_ADDI (w : InsnWord) : (OpcodeRow.mk "ADDI" 0xFF0FFF00 0x0F000000).covers w =
    decide ((fieldOp w).toNat = 0x0F ∧ fieldB w = 0 ∧ fieldZ w = 0) := by
  rw [OpcodeRow.covers, Bool.beq_eq_decide_eq, decide_eq_decide]; exact maskAI_iff w _ 0x0F rfl
theorem covers_HALT (w : InsnWord) : (OpcodeRow.mk "HALT" 0xFFFFFFFF 0xFF000000).covers w =
    decide ((fieldOp w).toNat = 0xFF ∧ fieldA w = 0 ∧ fieldB w = 0 ∧ fieldZ w = 0 ∧ fieldI w = 0) := by
  rw [OpcodeRow.covers, Bool.beq_eq_decide_eq, decide_eq_decide]; exact maskNone_iff w _ 0xFF rfl

end Sys2Proof
end

