-- ==== Sys2Proof/Laws/Memory.lean ====
section
/-! SUPPORT. The laws of the backing store: a byte read after a write, the other bytes, the canonical form, and the one spec
lemma of each Mmu operation. -/

namespace Sys2Proof.Machine

variable (fill : Nat → Byte) (size : Nat)

theorem Memory.get_eq_fill {m : List Host.Cell} {a : Nat} (h : ∀ e ∈ m, e.1 ≠ a) : Memory.get fill m a = fill a := by
  induction m with
  | nil => rfl
  | cons e m ih =>
    simp only [List.mem_cons, forall_eq_or_imp] at h
    simp only [Memory.get, if_neg h.1, ih h.2]

theorem Memory.get_filter_ne (m : List Host.Cell) {a x : Nat} (h : x ≠ a) :
    Memory.get fill (m.filter fun e => e.1 != a) x = Memory.get fill m x := by
  induction m with
  | nil => rfl
  | cons e m ih =>
    by_cases he : e.1 = a
    · rw [List.filter_cons_of_neg (by simp [he]), ih, Memory.get, if_neg (by omega)]
    · rw [List.filter_cons_of_pos (by simpa using he)]
      simp only [Memory.get, ih]

theorem Memory.get_insert (m : List Host.Cell) (a x : Nat) (v : Byte) (h : ∀ e ∈ m, e.1 ≠ a) :
    Memory.get fill (Memory.insert a v m) x = if x = a then v else Memory.get fill m x := by
  induction m with
  | nil => simp only [Memory.insert, Memory.get, eq_comm]
  | cons e m ih =>
    simp only [List.mem_cons, forall_eq_or_imp] at h
    unfold Memory.insert
    split
    · simp only [Memory.get, eq_comm]
    · simp only [Memory.get, ih h.2]
      by_cases hx : e.1 = x
      · have : x ≠ a := by rw [← hx]; exact h.1
        simp [hx, this]
      · simp [hx]

/-- Read after write, at any address: the value written there, and elsewhere what stood there. It holds of every list. -/
theorem Memory.get_set (m : List Host.Cell) (a x : Nat) (v : Byte) :
    Memory.get fill (Memory.set fill m a v) x = if x = a then v else Memory.get fill m x := by
  have hf : ∀ e ∈ m.filter (fun e => e.1 != a), e.1 ≠ a := fun e he => by simpa using (List.mem_filter.1 he).2
  unfold Memory.set
  by_cases hv : v = fill a
  · rw [if_pos hv]
    by_cases hx : x = a
    · rw [hx, if_pos rfl, Memory.get_eq_fill fill hf, hv]
    · rw [if_neg hx, Memory.get_filter_ne fill m hx]
  · rw [if_neg hv, Memory.get_insert fill _ a x v hf]
    by_cases hx : x = a
    · simp [hx]
    · rw [if_neg hx, if_neg hx, Memory.get_filter_ne fill m hx]

@[simp] theorem Memory.get_set_same (m : List Host.Cell) (a : Nat) (v : Byte) :
    Memory.get fill (Memory.set fill m a v) a = v := by simp [Memory.get_set]

theorem Memory.get_set_other (m : List Host.Cell) {a x : Nat} (v : Byte) (h : x ≠ a) :
    Memory.get fill (Memory.set fill m a v) x = Memory.get fill m x := by simp [Memory.get_set, h]

theorem Memory.mem_insert {m : List Host.Cell} {a : Nat} {v : Byte} {e : Host.Cell} :
    e ∈ Memory.insert a v m ↔ e = (a, v) ∨ e ∈ m := by
  induction m with
  | nil => simp [Memory.insert]
  | cons k m ih =>
    unfold Memory.insert
    split
    · simp
    · simp only [List.mem_cons, ih]; tauto

theorem Memory.pairwise_insert {m : List Host.Cell} {a : Nat} {v : Byte}
    (hm : m.Pairwise fun x y => x.1 < y.1) (ha : ∀ e ∈ m, e.1 ≠ a) :
    (Memory.insert a v m).Pairwise fun x y => x.1 < y.1 := by
  induction m with
  | nil => simp [Memory.insert]
  | cons k m ih =>
    simp only [List.mem_cons, forall_eq_or_imp] at ha
    rw [List.pairwise_cons] at hm
    unfold Memory.insert
    split
    case isTrue hlt =>
      refine List.pairwise_cons.2 ⟨fun e he => ?_, List.pairwise_cons.2 hm⟩
      rcases List.mem_cons.1 he with rfl | he
      · exact hlt
      · exact Nat.lt_trans hlt (hm.1 e he)
    case isFalse hge =>
      refine List.pairwise_cons.2 ⟨fun e he => ?_, ih hm.2 ha.2⟩
      rcases Memory.mem_insert.1 he with rfl | he
      · exact Nat.lt_of_le_of_ne (Nat.le_of_not_lt hge) ha.1
      · exact hm.1 e he

/-- The memory with nothing listed is canonical. -/
theorem Memory.wf_nil : Memory.wf fill size [] := by simp [Memory.wf]

/-- The fixed machine's memory at reset is canonical. -/
theorem Memory.wf_reset : Memory.wf Config.tisa.initMem Config.tisa.memSize State.reset.mem := Memory.wf_nil _ _

/-- A write inside the store keeps the canonical form. -/
theorem Memory.wf_set {m : List Host.Cell} {a : Nat} (v : Byte) (hm : Memory.wf fill size m) (ha : a < size) :
    Memory.wf fill size (Memory.set fill m a v) := by
  have hf : ∀ e ∈ m.filter (fun e => e.1 != a), e.1 ≠ a := fun e he => by simpa using (List.mem_filter.1 he).2
  have hp := hm.1.filter fun e => e.1 != a
  have hb : ∀ e ∈ m.filter (fun e => e.1 != a), e.1 < size ∧ e.2 ≠ fill e.1 :=
    fun e he => hm.2 e (List.mem_of_mem_filter he)
  unfold Memory.set
  by_cases hv : v = fill a
  · rw [if_pos hv]; exact ⟨hp, hb⟩
  · rw [if_neg hv]
    refine ⟨Memory.pairwise_insert hp hf, fun e he => ?_⟩
    rcases Memory.mem_insert.1 he with rfl | he
    · exact ⟨ha, hv⟩
    · exact hb e he

/-- Laying bytes keeps the canonical form. -/
theorem Memory.wf_place {m : List Host.Cell} (a : Nat) (bs : List Byte) (hm : Memory.wf fill size m) :
    Memory.wf fill size (Memory.place fill size m a bs) := by
  induction bs generalizing m a with
  | nil => exact hm
  | cons b bs ih =>
    refine ih _ ?_
    split
    · exact Memory.wf_set fill size b hm ‹_›
    · exact hm

/-- What bytes laid inside the store read as: byte `k` of them at `a + k`, and elsewhere what stood there. -/
theorem Memory.get_place (m : List Host.Cell) (a : Nat) (bs : List Byte) (x : Nat) (h : a + bs.length ≤ size) :
    Memory.get fill (Memory.place fill size m a bs) x =
      if a ≤ x then (bs[x - a]?).getD (Memory.get fill m x) else Memory.get fill m x := by
  induction bs generalizing m a with
  | nil => simp [Memory.place]
  | cons b bs ih =>
    have hl : a + 1 + bs.length ≤ size := by simp only [List.length_cons] at h; omega
    have ha : a < size := by omega
    rw [Memory.place, if_pos ha, ih _ _ hl, Memory.get_set]
    by_cases hx : a + 1 ≤ x
    · have h1 : x - a = x - (a + 1) + 1 := by omega
      have h2 : x ≠ a := by omega
      rw [if_pos hx, if_pos (Nat.le_of_succ_le hx), if_neg h2, h1, List.getElem?_cons_succ]
    · by_cases hxa : x = a
      · subst hxa
        simp
      · rw [if_neg hx, if_neg hxa, if_neg (by omega)]

end Sys2Proof.Machine

namespace Sys2Proof.Smol2
open Sys2Proof.Machine

variable {wb : Nat} (c : Config wb)

/-- The Mmu's check passes exactly for an address inside the store that `PERMITS` and the extension allow. -/
theorem Mmu.check_none_iff (a : Nat) (k : Access) :
    Mmu.check c a k = none ↔ a < c.memSize ∧ c.permits a k = true ∧ c.extFault a k = none := by
  unfold Mmu.check
  by_cases hb : c.memSize ≤ a
  · simp [hb, Nat.not_lt.2 hb]
  · by_cases hp : c.permits a k <;> simp [hb, hp, Nat.lt_of_not_le hb]

theorem Mmu.read_of_check_none {s : State wb} {a : Nat} (h : Mmu.check c a .read = none) :
    Mmu.read c s a = .success (some (s.byteAt c a)) := by simp only [Mmu.read, h]

theorem Mmu.read_of_check_some {s : State wb} {a : Nat} {kind : FaultKind} (h : Mmu.check c a .read = some kind) :
    Mmu.read c s a = .fault kind a .read := by simp only [Mmu.read, h]

theorem Mmu.write_of_check_none {s : State wb} {a : Nat} {v : Byte} (h : Mmu.check c a .write = none) :
    Mmu.write c s a v = (.success none, { s with mem := Memory.set c.initMem s.mem a v }) := by
  simp only [Mmu.write, h]

theorem Mmu.write_of_check_some {s : State wb} {a : Nat} {v : Byte} {kind : FaultKind}
    (h : Mmu.check c a .write = some kind) : Mmu.write c s a v = (.fault kind a .write, s) := by
  simp only [Mmu.write, h]

end Sys2Proof.Smol2
end

