-- ==== Sys2Proof/Laws/State.lean ====
section
/-! SUPPORT. One lemma per field per update of the state, true by rfl (by cases for a recorded transfer), so that no later
proof unfolds a record update. -/

namespace Sys2Proof.Smol2

variable {wb : Nat}

@[simp] theorem State.setReg_regs (s : State wb) (i : RegisterId) (v : Word wb) :
    (s.setReg i v).regs = s.regs.set i v := rfl
@[simp] theorem State.setReg_rip (s : State wb) (i : RegisterId) (v : Word wb) :
    (s.setReg i v).rip = s.rip := rfl
@[simp] theorem State.setReg_nextRip (s : State wb) (i : RegisterId) (v : Word wb) :
    (s.setReg i v).nextRip = s.nextRip := rfl
@[simp] theorem State.setReg_tBit (s : State wb) (i : RegisterId) (v : Word wb) :
    (s.setReg i v).tBit = s.tBit := rfl
@[simp] theorem State.setReg_currentInstruction (s : State wb) (i : RegisterId) (v : Word wb) :
    (s.setReg i v).currentInstruction = s.currentInstruction := rfl
@[simp] theorem State.setReg_enabled (s : State wb) (i : RegisterId) (v : Word wb) :
    (s.setReg i v).enabled = s.enabled := rfl
@[simp] theorem State.setReg_intret (s : State wb) (i : RegisterId) (v : Word wb) :
    (s.setReg i v).intret = s.intret := rfl
@[simp] theorem State.setReg_run (s : State wb) (i : RegisterId) (v : Word wb) :
    (s.setReg i v).run = s.run := rfl
@[simp] theorem State.setReg_executedOps (s : State wb) (i : RegisterId) (v : Word wb) :
    (s.setReg i v).executedOps = s.executedOps := rfl
@[simp] theorem State.setReg_startTimestamp (s : State wb) (i : RegisterId) (v : Word wb) :
    (s.setReg i v).startTimestamp = s.startTimestamp := rfl
@[simp] theorem State.setReg_mem (s : State wb) (i : RegisterId) (v : Word wb) :
    (s.setReg i v).mem = s.mem := rfl
@[simp] theorem State.setReg_trace (s : State wb) (i : RegisterId) (v : Word wb) :
    (s.setReg i v).trace = s.trace := rfl
@[simp] theorem State.setReg_host (s : State wb) (i : RegisterId) (v : Word wb) :
    (s.setReg i v).host = s.host := rfl
@[simp] theorem State.setReg_replies (s : State wb) (i : RegisterId) (v : Word wb) :
    (s.setReg i v).replies = s.replies := rfl

@[simp] theorem State.setIntEnabled_regs (s : State wb) (b : Bool) :
    (s.setIntEnabled b).regs = s.regs := rfl
@[simp] theorem State.setIntEnabled_rip (s : State wb) (b : Bool) :
    (s.setIntEnabled b).rip = s.rip := rfl
@[simp] theorem State.setIntEnabled_nextRip (s : State wb) (b : Bool) :
    (s.setIntEnabled b).nextRip = s.nextRip := rfl
@[simp] theorem State.setIntEnabled_tBit (s : State wb) (b : Bool) :
    (s.setIntEnabled b).tBit = s.tBit := rfl
@[simp] theorem State.setIntEnabled_currentInstruction (s : State wb) (b : Bool) :
    (s.setIntEnabled b).currentInstruction = s.currentInstruction := rfl
@[simp] theorem State.setIntEnabled_enabled (s : State wb) (b : Bool) :
    (s.setIntEnabled b).enabled = b := rfl
@[simp] theorem State.setIntEnabled_intret (s : State wb) (b : Bool) :
    (s.setIntEnabled b).intret = s.intret := rfl
@[simp] theorem State.setIntEnabled_run (s : State wb) (b : Bool) :
    (s.setIntEnabled b).run = s.run := rfl
@[simp] theorem State.setIntEnabled_executedOps (s : State wb) (b : Bool) :
    (s.setIntEnabled b).executedOps = s.executedOps := rfl
@[simp] theorem State.setIntEnabled_startTimestamp (s : State wb) (b : Bool) :
    (s.setIntEnabled b).startTimestamp = s.startTimestamp := rfl
@[simp] theorem State.setIntEnabled_mem (s : State wb) (b : Bool) :
    (s.setIntEnabled b).mem = s.mem := rfl
@[simp] theorem State.setIntEnabled_trace (s : State wb) (b : Bool) :
    (s.setIntEnabled b).trace = s.trace := rfl
@[simp] theorem State.setIntEnabled_host (s : State wb) (b : Bool) :
    (s.setIntEnabled b).host = s.host := rfl
@[simp] theorem State.setIntEnabled_replies (s : State wb) (b : Bool) :
    (s.setIntEnabled b).replies = s.replies := rfl

@[simp] theorem State.setIntret_regs (s : State wb) (v : Word wb) :
    (s.setIntret v).regs = s.regs := rfl
@[simp] theorem State.setIntret_rip (s : State wb) (v : Word wb) :
    (s.setIntret v).rip = s.rip := rfl
@[simp] theorem State.setIntret_nextRip (s : State wb) (v : Word wb) :
    (s.setIntret v).nextRip = s.nextRip := rfl
@[simp] theorem State.setIntret_tBit (s : State wb) (v : Word wb) :
    (s.setIntret v).tBit = s.tBit := rfl
@[simp] theorem State.setIntret_currentInstruction (s : State wb) (v : Word wb) :
    (s.setIntret v).currentInstruction = s.currentInstruction := rfl
@[simp] theorem State.setIntret_enabled (s : State wb) (v : Word wb) :
    (s.setIntret v).enabled = s.enabled := rfl
@[simp] theorem State.setIntret_intret (s : State wb) (v : Word wb) :
    (s.setIntret v).intret = v := rfl
@[simp] theorem State.setIntret_run (s : State wb) (v : Word wb) :
    (s.setIntret v).run = s.run := rfl
@[simp] theorem State.setIntret_executedOps (s : State wb) (v : Word wb) :
    (s.setIntret v).executedOps = s.executedOps := rfl
@[simp] theorem State.setIntret_startTimestamp (s : State wb) (v : Word wb) :
    (s.setIntret v).startTimestamp = s.startTimestamp := rfl
@[simp] theorem State.setIntret_mem (s : State wb) (v : Word wb) :
    (s.setIntret v).mem = s.mem := rfl
@[simp] theorem State.setIntret_trace (s : State wb) (v : Word wb) :
    (s.setIntret v).trace = s.trace := rfl
@[simp] theorem State.setIntret_host (s : State wb) (v : Word wb) :
    (s.setIntret v).host = s.host := rfl
@[simp] theorem State.setIntret_replies (s : State wb) (v : Word wb) :
    (s.setIntret v).replies = s.replies := rfl

@[simp] theorem State.emit_regs (s : State wb) (e : Event wb) :
    (s.emit e).regs = s.regs := rfl
@[simp] theorem State.emit_rip (s : State wb) (e : Event wb) :
    (s.emit e).rip = s.rip := rfl
@[simp] theorem State.emit_nextRip (s : State wb) (e : Event wb) :
    (s.emit e).nextRip = s.nextRip := rfl
@[simp] theorem State.emit_tBit (s : State wb) (e : Event wb) :
    (s.emit e).tBit = s.tBit := rfl
@[simp] theorem State.emit_currentInstruction (s : State wb) (e : Event wb) :
    (s.emit e).currentInstruction = s.currentInstruction := rfl
@[simp] theorem State.emit_enabled (s : State wb) (e : Event wb) :
    (s.emit e).enabled = s.enabled := rfl
@[simp] theorem State.emit_intret (s : State wb) (e : Event wb) :
    (s.emit e).intret = s.intret := rfl
@[simp] theorem State.emit_run (s : State wb) (e : Event wb) :
    (s.emit e).run = s.run := rfl
@[simp] theorem State.emit_executedOps (s : State wb) (e : Event wb) :
    (s.emit e).executedOps = s.executedOps := rfl
@[simp] theorem State.emit_startTimestamp (s : State wb) (e : Event wb) :
    (s.emit e).startTimestamp = s.startTimestamp := rfl
@[simp] theorem State.emit_mem (s : State wb) (e : Event wb) :
    (s.emit e).mem = s.mem := rfl
@[simp] theorem State.emit_trace (s : State wb) (e : Event wb) :
    (s.emit e).trace = s.trace ++ [e] := rfl
@[simp] theorem State.emit_host (s : State wb) (e : Event wb) :
    (s.emit e).host = s.host := rfl
@[simp] theorem State.emit_replies (s : State wb) (e : Event wb) :
    (s.emit e).replies = s.replies := rfl

@[simp] theorem fireException_regs (s : State wb) (r : FaultReason wb) :
    (fireException r s).regs = s.regs := rfl
@[simp] theorem fireException_rip (s : State wb) (r : FaultReason wb) :
    (fireException r s).rip = s.rip := rfl
@[simp] theorem fireException_nextRip (s : State wb) (r : FaultReason wb) :
    (fireException r s).nextRip = s.nextRip := rfl
@[simp] theorem fireException_tBit (s : State wb) (r : FaultReason wb) :
    (fireException r s).tBit = s.tBit := rfl
@[simp] theorem fireException_currentInstruction (s : State wb) (r : FaultReason wb) :
    (fireException r s).currentInstruction = s.currentInstruction := rfl
@[simp] theorem fireException_enabled (s : State wb) (r : FaultReason wb) :
    (fireException r s).enabled = s.enabled := rfl
@[simp] theorem fireException_intret (s : State wb) (r : FaultReason wb) :
    (fireException r s).intret = s.intret := rfl
@[simp] theorem fireException_run (s : State wb) (r : FaultReason wb) :
    (fireException r s).run = .faulted r := rfl
@[simp] theorem fireException_executedOps (s : State wb) (r : FaultReason wb) :
    (fireException r s).executedOps = s.executedOps := rfl
@[simp] theorem fireException_startTimestamp (s : State wb) (r : FaultReason wb) :
    (fireException r s).startTimestamp = s.startTimestamp := rfl
@[simp] theorem fireException_mem (s : State wb) (r : FaultReason wb) :
    (fireException r s).mem = s.mem := rfl
@[simp] theorem fireException_trace (s : State wb) (r : FaultReason wb) :
    (fireException r s).trace = s.trace ++ [.panic r] := rfl
@[simp] theorem fireException_host (s : State wb) (r : FaultReason wb) :
    (fireException r s).host = s.host := rfl
@[simp] theorem fireException_replies (s : State wb) (r : FaultReason wb) :
    (fireException r s).replies = s.replies := rfl

@[simp] theorem enterInterrupt_regs (s : State wb) (h : Word wb) (t : Bool) :
    (enterInterrupt h t s).regs = s.regs := rfl
@[simp] theorem enterInterrupt_rip (s : State wb) (h : Word wb) (t : Bool) :
    (enterInterrupt h t s).rip = h := rfl
@[simp] theorem enterInterrupt_nextRip (s : State wb) (h : Word wb) (t : Bool) :
    (enterInterrupt h t s).nextRip = h := rfl
@[simp] theorem enterInterrupt_tBit (s : State wb) (h : Word wb) (t : Bool) :
    (enterInterrupt h t s).tBit = t := rfl
@[simp] theorem enterInterrupt_currentInstruction (s : State wb) (h : Word wb) (t : Bool) :
    (enterInterrupt h t s).currentInstruction = s.currentInstruction := rfl
@[simp] theorem enterInterrupt_enabled (s : State wb) (h : Word wb) (t : Bool) :
    (enterInterrupt h t s).enabled = false := rfl
@[simp] theorem enterInterrupt_intret (s : State wb) (h : Word wb) (t : Bool) :
    (enterInterrupt h t s).intret = s.rip := rfl
@[simp] theorem enterInterrupt_run (s : State wb) (h : Word wb) (t : Bool) :
    (enterInterrupt h t s).run = s.run := rfl
@[simp] theorem enterInterrupt_executedOps (s : State wb) (h : Word wb) (t : Bool) :
    (enterInterrupt h t s).executedOps = s.executedOps := rfl
@[simp] theorem enterInterrupt_startTimestamp (s : State wb) (h : Word wb) (t : Bool) :
    (enterInterrupt h t s).startTimestamp = s.startTimestamp := rfl
@[simp] theorem enterInterrupt_mem (s : State wb) (h : Word wb) (t : Bool) :
    (enterInterrupt h t s).mem = s.mem := rfl
@[simp] theorem enterInterrupt_trace (s : State wb) (h : Word wb) (t : Bool) :
    (enterInterrupt h t s).trace = s.trace := rfl
@[simp] theorem enterInterrupt_host (s : State wb) (h : Word wb) (t : Bool) :
    (enterInterrupt h t s).host = s.host := rfl
@[simp] theorem enterInterrupt_replies (s : State wb) (h : Word wb) (t : Bool) :
    (enterInterrupt h t s).replies = s.replies := rfl

@[simp] theorem bootState_regs (s : State wb) (c : Config wb) (now : HostTime) :
    (bootState c now s).regs = Vector.replicate nregs 0 := rfl
@[simp] theorem bootState_rip (s : State wb) (c : Config wb) (now : HostTime) :
    (bootState c now s).rip = entry wb := rfl
@[simp] theorem bootState_nextRip (s : State wb) (c : Config wb) (now : HostTime) :
    (bootState c now s).nextRip = entry wb := rfl
@[simp] theorem bootState_tBit (s : State wb) (c : Config wb) (now : HostTime) :
    (bootState c now s).tBit = false := rfl
@[simp] theorem bootState_currentInstruction (s : State wb) (c : Config wb) (now : HostTime) :
    (bootState c now s).currentInstruction = none := rfl
@[simp] theorem bootState_enabled (s : State wb) (c : Config wb) (now : HostTime) :
    (bootState c now s).enabled = false := rfl
@[simp] theorem bootState_intret (s : State wb) (c : Config wb) (now : HostTime) :
    (bootState c now s).intret = c.intret0 := rfl
@[simp] theorem bootState_run (s : State wb) (c : Config wb) (now : HostTime) :
    (bootState c now s).run = .running := rfl
@[simp] theorem bootState_executedOps (s : State wb) (c : Config wb) (now : HostTime) :
    (bootState c now s).executedOps = 0 := rfl
@[simp] theorem bootState_startTimestamp (s : State wb) (c : Config wb) (now : HostTime) :
    (bootState c now s).startTimestamp = now := rfl
@[simp] theorem bootState_mem (s : State wb) (c : Config wb) (now : HostTime) :
    (bootState c now s).mem = s.mem := rfl
@[simp] theorem bootState_trace (s : State wb) (c : Config wb) (now : HostTime) :
    (bootState c now s).trace = s.trace := rfl
@[simp] theorem bootState_host (s : State wb) (c : Config wb) (now : HostTime) :
    (bootState c now s).host = s.host := rfl
@[simp] theorem bootState_replies (s : State wb) (c : Config wb) (now : HostTime) :
    (bootState c now s).replies = s.replies := rfl

@[simp] theorem State.recordTransfer_regs (s : State wb) (sched : Option (Word wb)) :
    (s.recordTransfer sched).regs = s.regs := by cases sched <;> rfl
@[simp] theorem State.recordTransfer_rip (s : State wb) (sched : Option (Word wb)) :
    (s.recordTransfer sched).rip = s.rip := by cases sched <;> rfl
@[simp] theorem State.recordTransfer_nextRip (s : State wb) (sched : Option (Word wb)) :
    (s.recordTransfer sched).nextRip = sched.getD s.nextRip := by cases sched <;> rfl
@[simp] theorem State.recordTransfer_tBit (s : State wb) (sched : Option (Word wb)) :
    (s.recordTransfer sched).tBit = sched.isSome := by cases sched <;> rfl
@[simp] theorem State.recordTransfer_currentInstruction (s : State wb) (sched : Option (Word wb)) :
    (s.recordTransfer sched).currentInstruction = s.currentInstruction := by cases sched <;> rfl
@[simp] theorem State.recordTransfer_enabled (s : State wb) (sched : Option (Word wb)) :
    (s.recordTransfer sched).enabled = s.enabled := by cases sched <;> rfl
@[simp] theorem State.recordTransfer_intret (s : State wb) (sched : Option (Word wb)) :
    (s.recordTransfer sched).intret = s.intret := by cases sched <;> rfl
@[simp] theorem State.recordTransfer_run (s : State wb) (sched : Option (Word wb)) :
    (s.recordTransfer sched).run = s.run := by cases sched <;> rfl
@[simp] theorem State.recordTransfer_executedOps (s : State wb) (sched : Option (Word wb)) :
    (s.recordTransfer sched).executedOps = s.executedOps := by cases sched <;> rfl
@[simp] theorem State.recordTransfer_startTimestamp (s : State wb) (sched : Option (Word wb)) :
    (s.recordTransfer sched).startTimestamp = s.startTimestamp := by cases sched <;> rfl
@[simp] theorem State.recordTransfer_mem (s : State wb) (sched : Option (Word wb)) :
    (s.recordTransfer sched).mem = s.mem := by cases sched <;> rfl
@[simp] theorem State.recordTransfer_trace (s : State wb) (sched : Option (Word wb)) :
    (s.recordTransfer sched).trace = s.trace := by cases sched <;> rfl
@[simp] theorem State.recordTransfer_host (s : State wb) (sched : Option (Word wb)) :
    (s.recordTransfer sched).host = s.host := by cases sched <;> rfl
@[simp] theorem State.recordTransfer_replies (s : State wb) (sched : Option (Word wb)) :
    (s.recordTransfer sched).replies = s.replies := by cases sched <;> rfl

@[simp] theorem completeCycle_regs (s : State wb) (t0 : Bool) (n0 a : Word wb) (sched : Option (Word wb)) (h : Bool) :
    (completeCycle t0 n0 a sched h s).regs = s.regs := by cases sched <;> cases h <;> rfl
@[simp] theorem completeCycle_rip (s : State wb) (t0 : Bool) (n0 a : Word wb) (sched : Option (Word wb)) (h : Bool) :
    (completeCycle t0 n0 a sched h s).rip = advance t0 n0 a := by cases sched <;> cases h <;> rfl
@[simp] theorem completeCycle_nextRip (s : State wb) (t0 : Bool) (n0 a : Word wb) (sched : Option (Word wb)) (h : Bool) :
    (completeCycle t0 n0 a sched h s).nextRip = sched.getD s.nextRip := by cases sched <;> cases h <;> rfl
@[simp] theorem completeCycle_tBit (s : State wb) (t0 : Bool) (n0 a : Word wb) (sched : Option (Word wb)) (h : Bool) :
    (completeCycle t0 n0 a sched h s).tBit = sched.isSome := by cases sched <;> cases h <;> rfl
@[simp] theorem completeCycle_currentInstruction (s : State wb) (t0 : Bool) (n0 a : Word wb) (sched : Option (Word wb)) (h : Bool) :
    (completeCycle t0 n0 a sched h s).currentInstruction = s.currentInstruction := by cases sched <;> cases h <;> rfl
@[simp] theorem completeCycle_enabled (s : State wb) (t0 : Bool) (n0 a : Word wb) (sched : Option (Word wb)) (h : Bool) :
    (completeCycle t0 n0 a sched h s).enabled = s.enabled := by cases sched <;> cases h <;> rfl
@[simp] theorem completeCycle_intret (s : State wb) (t0 : Bool) (n0 a : Word wb) (sched : Option (Word wb)) (h : Bool) :
    (completeCycle t0 n0 a sched h s).intret = s.intret := by cases sched <;> cases h <;> rfl
@[simp] theorem completeCycle_run (s : State wb) (t0 : Bool) (n0 a : Word wb) (sched : Option (Word wb)) (h : Bool) :
    (completeCycle t0 n0 a sched h s).run = if h then .halted else s.run := by cases sched <;> cases h <;> rfl
@[simp] theorem completeCycle_executedOps (s : State wb) (t0 : Bool) (n0 a : Word wb) (sched : Option (Word wb)) (h : Bool) :
    (completeCycle t0 n0 a sched h s).executedOps = s.executedOps + 1 := by cases sched <;> cases h <;> rfl
@[simp] theorem completeCycle_startTimestamp (s : State wb) (t0 : Bool) (n0 a : Word wb) (sched : Option (Word wb)) (h : Bool) :
    (completeCycle t0 n0 a sched h s).startTimestamp = s.startTimestamp := by cases sched <;> cases h <;> rfl
@[simp] theorem completeCycle_mem (s : State wb) (t0 : Bool) (n0 a : Word wb) (sched : Option (Word wb)) (h : Bool) :
    (completeCycle t0 n0 a sched h s).mem = s.mem := by cases sched <;> cases h <;> rfl
@[simp] theorem completeCycle_trace (s : State wb) (t0 : Bool) (n0 a : Word wb) (sched : Option (Word wb)) (h : Bool) :
    (completeCycle t0 n0 a sched h s).trace = s.trace ++ [.keepalive] := by cases sched <;> cases h <;> rfl
@[simp] theorem completeCycle_host (s : State wb) (t0 : Bool) (n0 a : Word wb) (sched : Option (Word wb)) (h : Bool) :
    (completeCycle t0 n0 a sched h s).host = s.host := by cases sched <;> cases h <;> rfl
@[simp] theorem completeCycle_replies (s : State wb) (t0 : Bool) (n0 a : Word wb) (sched : Option (Word wb)) (h : Bool) :
    (completeCycle t0 n0 a sched h s).replies = s.replies := by cases sched <;> cases h <;> rfl

/-- Read after write of one register (R22). -/
@[simp] theorem State.reg_setReg_same (s : State wb) (i : RegisterId) (v : Word wb) : (s.setReg i v).reg i = v := by
  simp [State.reg, State.setReg]

/-- A write to a slot changes no other slot (R22, R24). -/
theorem State.reg_setReg_other (s : State wb) {i j : RegisterId} (v : Word wb) (h : j ≠ i) :
    (s.setReg i v).reg j = s.reg j := by
  have : (i : Nat) ≠ j := fun e => h (Fin.ext e.symm)
  simp [State.reg, State.setReg, Vector.getElem_set_ne, this]

/-- A register reads the same in states with the same register file. -/
theorem State.reg_congr {s t : State wb} (h : t.regs = s.regs) (i : RegisterId) : t.reg i = s.reg i := by
  simp only [State.reg, h]

/-- A byte of the store reads the same in states with the same store. -/
theorem State.byteAt_congr (c : Config wb) {s t : State wb} (h : t.mem = s.mem) (a : Nat) :
    t.byteAt c a = s.byteAt c a := by
  simp only [State.byteAt, h]

end Sys2Proof.Smol2
end

