-- ==== Sys2Proof/Laws/Ops.lean ====
section
/-! SUPPORT. One spec lemma per shared operation: everything a checked access, a body, a fetch or a cycle can do. Proofs
about steps cite these and do not unfold the operations. -/

namespace Sys2Proof.Smol2
open Sys2Proof.Machine

variable {wb : Nat} (c : Config wb)

/-! ## Checked accesses -/

/-- A read that passes the check gives the Byte and changes nothing. -/
theorem memRead_of_check_none {s : State wb} {a : Nat} (h : Mmu.check c a .read = none) :
    memRead c a s = (some (s.byteAt c a), s) := by
  simp only [memRead, Mmu.read_of_check_none c h, checkAccessElseFault]

/-- A read that fails the check takes the access fault. -/
theorem memRead_of_check_some {s : State wb} {a : Nat} {kind : FaultKind} (h : Mmu.check c a .read = some kind) :
    memRead c a s = (none, fireException (.accessFault kind a .read) s) := by
  simp only [memRead, Mmu.read_of_check_some c h, checkAccessElseFault]

/-- Everything a checked read can do. -/
theorem memRead_cases (s : State wb) (a : Nat) :
    (Mmu.check c a .read = none ∧ memRead c a s = (some (s.byteAt c a), s)) ∨
    ∃ kind, Mmu.check c a .read = some kind ∧
      memRead c a s = (none, fireException (.accessFault kind a .read) s) := by
  cases h : Mmu.check c a .read with
  | none => exact .inl ⟨rfl, memRead_of_check_none c h⟩
  | some kind => exact .inr ⟨kind, rfl, memRead_of_check_some c h⟩

/-- A write that passes the check writes the Byte and nothing else. -/
theorem memWrite_of_check_none {s : State wb} {a : Nat} {v : Byte} (h : Mmu.check c a .write = none) :
    memWrite c a v s = (true, { s with mem := Memory.set c.initMem s.mem a v }) := by
  simp only [memWrite, Mmu.write_of_check_none c h, checkAccessElseFault]

/-- A write that fails the check takes the access fault and leaves memory alone. -/
theorem memWrite_of_check_some {s : State wb} {a : Nat} {v : Byte} {kind : FaultKind}
    (h : Mmu.check c a .write = some kind) :
    memWrite c a v s = (false, fireException (.accessFault kind a .write) s) := by
  simp only [memWrite, Mmu.write_of_check_some c h, checkAccessElseFault]

/-- Everything a checked write can do. -/
theorem memWrite_cases (s : State wb) (a : Nat) (v : Byte) :
    (Mmu.check c a .write = none ∧
      memWrite c a v s = (true, { s with mem := Memory.set c.initMem s.mem a v })) ∨
    ∃ kind, Mmu.check c a .write = some kind ∧
      memWrite c a v s = (false, fireException (.accessFault kind a .write) s) := by
  cases h : Mmu.check c a .write with
  | none => exact .inl ⟨rfl, memWrite_of_check_none c h⟩
  | some kind => exact .inr ⟨kind, rfl, memWrite_of_check_some c h⟩

/-! ## Fetch -/

/-- Everything a sequence of byte reads can do: all of them pass, or the first failing one takes its fault. -/
theorem memReadN_cases (n a : Nat) (s : State wb) :
    ((∀ k < n, Mmu.check c (a + k) .read = none) ∧
      memReadN c n a s = (some ((List.range n).map fun k => s.byteAt c (a + k)), s)) ∨
    ∃ k kind, k < n ∧ (∀ j < k, Mmu.check c (a + j) .read = none) ∧ Mmu.check c (a + k) .read = some kind ∧
      memReadN c n a s = (none, fireException (.accessFault kind (a + k) .read) s) := by
  induction n generalizing a with
  | zero => exact .inl ⟨fun k hk => absurd hk (Nat.not_lt_zero k), rfl⟩
  | succ n ih =>
    rcases memRead_cases c s a with ⟨h0, hr⟩ | ⟨kind, h0, hr⟩
    · rcases ih (a + 1) with ⟨hall, hn⟩ | ⟨k, kind, hk, hbefore, hat, hn⟩
      · refine .inl ⟨fun k hk => ?_, ?_⟩
        · cases k with
          | zero => exact h0
          | succ k =>
            rw [show a + (k + 1) = a + 1 + k by omega]
            exact hall k (Nat.lt_of_succ_lt_succ hk)
        · simp only [memReadN, hr, hn, List.range_succ_eq_map, List.map_cons, List.map_map, Nat.add_zero]
          simp only [Prod.mk.injEq, Option.some.injEq, List.cons.injEq, true_and, and_true]
          refine List.map_congr_left fun k _ => ?_
          simp only [Function.comp, Nat.succ_eq_add_one, Nat.add_assoc, Nat.add_comm 1 k]
      · refine .inr ⟨k + 1, kind, Nat.succ_lt_succ hk, fun j hj => ?_, ?_, ?_⟩
        · cases j with
          | zero => exact h0
          | succ j =>
            rw [show a + (j + 1) = a + 1 + j by omega]
            exact hbefore j (Nat.lt_of_succ_lt_succ hj)
        · rw [show a + (k + 1) = a + 1 + k by omega]; exact hat
        · rw [show a + (k + 1) = a + 1 + k by omega]; simp only [memReadN, hr, hn]
    · refine .inr ⟨0, kind, Nat.succ_pos n, fun j hj => absurd hj (Nat.not_lt_zero j), h0, ?_⟩
      simp only [memReadN, hr, Nat.add_zero]

/-- The word the store holds at an address, in the configuration's byte order (R145). -/
def wordAt (c : Config wb) (s : State wb) (a : Nat) : InsnWord :=
  assembleWord c.fetchOrder (s.byteAt c a) (s.byteAt c (a + 1)) (s.byteAt c (a + 2)) (s.byteAt c (a + 3))

/-- Everything a fetch can do (R144): it gives the word at `rip` and records it, or it takes the access fault of the first
failing byte and records that there is none. -/
theorem fetchInstruction_cases (s : State wb) :
    ((∀ k < insnBytes, Mmu.check c (s.rip.toNat + k) .read = none) ∧
      fetchInstruction c s = (some (wordAt c s s.rip.toNat),
        { s with currentInstruction := some (wordAt c s s.rip.toNat) })) ∨
    ∃ k kind, k < insnBytes ∧ (∀ j < k, Mmu.check c (s.rip.toNat + j) .read = none) ∧
      Mmu.check c (s.rip.toNat + k) .read = some kind ∧
      fetchInstruction c s = (none,
        { fireException (.accessFault kind (s.rip.toNat + k) .read) s with currentInstruction := none }) := by
  rcases memReadN_cases c insnBytes s.rip.toNat s with ⟨hall, hn⟩ | ⟨k, kind, hk, hbefore, hat, hn⟩
  · refine .inl ⟨hall, ?_⟩
    have hb : (List.range insnBytes).map (fun k => s.byteAt c (s.rip.toNat + k)) =
        [s.byteAt c s.rip.toNat, s.byteAt c (s.rip.toNat + 1), s.byteAt c (s.rip.toNat + 2),
          s.byteAt c (s.rip.toNat + 3)] := rfl
    rw [hb] at hn
    simp only [fetchInstruction, hn, wordAt]
  · exact .inr ⟨k, kind, hk, hbefore, hat, by simp only [fetchInstruction, hn]⟩

/-! ## Bodies and cycles -/

/-- What no body can change, whatever it calls (R27, R149, R151, R181, R194). -/
structure BodyFrame (s t : State wb) : Prop where
  rip : t.rip = s.rip
  nextRip : t.nextRip = s.nextRip
  tBit : t.tBit = s.tBit
  currentInstruction : t.currentInstruction = s.currentInstruction
  executedOps : t.executedOps = s.executedOps
  startTimestamp : t.startTimestamp = s.startTimestamp
  host : t.host = s.host
  replies : t.replies = s.replies
  memory : Memory.wf c.initMem c.memSize s.mem → Memory.wf c.initMem c.memSize t.mem

theorem BodyFrame.refl (s : State wb) : BodyFrame c s s := ⟨rfl, rfl, rfl, rfl, rfl, rfl, rfl, rfl, id⟩

theorem BodyFrame.trans {s t u : State wb} (h : BodyFrame c s t) (k : BodyFrame c t u) : BodyFrame c s u :=
  ⟨k.rip.trans h.rip, k.nextRip.trans h.nextRip, k.tBit.trans h.tBit,
    k.currentInstruction.trans h.currentInstruction, k.executedOps.trans h.executedOps,
    k.startTimestamp.trans h.startTimestamp, k.host.trans h.host, k.replies.trans h.replies, k.memory ∘ h.memory⟩

theorem BodyFrame.fireException (s : State wb) (r : FaultReason wb) : BodyFrame c s (fireException r s) :=
  ⟨rfl, rfl, rfl, rfl, rfl, rfl, rfl, rfl, id⟩

/-- What the end of a body says: one that returns normally has emitted nothing and has left `run` alone; one that a fault
ended has taken exactly that fault (R181, R272, R274). -/
def BodyEnd (s : State wb) : BodyResult wb → Prop
  | .completed t _ _ => BodyFrame c s t ∧ t.run = s.run ∧ t.trace = s.trace
  | .aborted t => BodyFrame c s t ∧ ∃ r, t.run = .faulted r ∧ t.trace = s.trace ++ [.panic r]

/-- A call that raises no fault goes from a state to one that the rest of the body starts from. -/
theorem BodyEnd.after {s u : State wb} {res : BodyResult wb} (hf : BodyFrame c s u) (hrun : u.run = s.run)
    (htr : u.trace = s.trace) (h : BodyEnd c u res) : BodyEnd c s res := by
  cases res with
  | completed t sched halting => exact ⟨hf.trans c h.1, h.2.1.trans hrun, h.2.2.trans htr⟩
  | aborted t =>
    obtain ⟨hb, r, hr, ht⟩ := h
    exact ⟨hf.trans c hb, r, hr, by rw [ht, htr]⟩

/-- A fault taken in a body. -/
theorem BodyEnd.fault (s : State wb) (r : FaultReason wb) : BodyEnd c s (.aborted (Smol2.fireException r s)) :=
  ⟨.fireException c s r, r, rfl, rfl⟩

/-- Everything the running of a body can do, whatever the body. -/
theorem runBody_end (w : InsnWord) (a : Word wb) (t0 : Bool) (b : Body wb) (s : State wb)
    (sched : Option (Word wb)) (h : Bool) : BodyEnd c s (runBody c w a t0 b s sched h) := by
  induction b generalizing s sched h with
  | done => exact ⟨.refl c s, rfl, rfl⟩
  | reg i k ih => exact ih (s.reg i) s sched h
  | setReg i v k ih =>
    exact BodyEnd.after c (u := s.setReg i v) ⟨rfl, rfl, rfl, rfl, rfl, rfl, rfl, rfl, id⟩ rfl rfl
      (ih (s.setReg i v) sched h)
  | load addr k ih =>
    rcases memRead_cases c s addr.toNat with ⟨_, hr⟩ | ⟨kind, _, hr⟩
    · simp only [runBody, hr]; exact ih _ s sched h
    · simp only [runBody, hr]; exact .fault c s _
  | store addr v k ih =>
    rcases memWrite_cases c s addr.toNat v with ⟨hc, hr⟩ | ⟨kind, _, hr⟩
    · simp only [runBody, hr]
      refine BodyEnd.after c (u := { s with mem := Memory.set c.initMem s.mem addr.toNat v })
        ⟨rfl, rfl, rfl, rfl, rfl, rfl, rfl, rfl, fun hm => ?_⟩ rfl rfl (ih _ sched h)
      exact Memory.wf_set _ _ v hm ((Mmu.check_none_iff c _ _).1 hc).1
    · simp only [runBody, hr]; exact .fault c s _
  | rip k ih => exact ih a s sched h
  | inDelaySlot k ih => exact ih t0 s sched h
  | schedule target k ih => exact ih s (some target) h
  | intEnabled k ih => exact ih s.enabled s sched h
  | setIntEnabled b k ih =>
    exact BodyEnd.after c (u := s.setIntEnabled b) ⟨rfl, rfl, rfl, rfl, rfl, rfl, rfl, rfl, id⟩ rfl rfl
      (ih (s.setIntEnabled b) sched h)
  | intret k ih => exact ih s.intret s sched h
  | setIntret v k ih =>
    exact BodyEnd.after c (u := s.setIntret v) ⟨rfl, rfl, rfl, rfl, rfl, rfl, rfl, rfl, id⟩ rfl rfl
      (ih (s.setIntret v) sched h)
  | halt k ih => exact ih s sched true
  | undefined => exact .fault c s _
  | undefinedBehavior what => exact .fault c s _

/-- Everything a cycle after its fetch can do, for any body: it completes (R148), or exactly one fault is taken and the
pointers, the flag and the counter stay (R149). -/
theorem runCycle_cases (w : InsnWord) (b : Body wb) (s : State wb) :
    (∃ t sched h, runCycle c w b s = completeCycle s.tBit s.nextRip s.rip sched h t ∧
      BodyFrame c s t ∧ t.run = s.run ∧ t.trace = s.trace) ∨
    (∃ r, BodyFrame c s (runCycle c w b s) ∧ (runCycle c w b s).run = .faulted r ∧
      (runCycle c w b s).trace = s.trace ++ [.panic r]) := by
  have h := runBody_end c w s.rip s.tBit b s none false
  unfold runCycle
  cases hb : runBody c w s.rip s.tBit b s none false with
  | completed t sched halting => rw [hb] at h; exact .inl ⟨t, sched, halting, rfl, h⟩
  | aborted t =>
    rw [hb] at h
    obtain ⟨hf, r, hr, ht⟩ := h
    exact .inr ⟨r, hf, hr, ht⟩

/-! ## Host operations -/

/-- Everything `boot` can do when it has a step (R142, R143). -/
theorem boot_next {now : HostTime} {s t : State wb} (h : boot c now s = .next t) :
    (s.run = .idle ∨ s.run = .running ∧ s.currentInstruction = none) ∧ t = bootState c now s := by
  unfold boot at h
  split at h <;> simp_all

/-- Everything `fire_interrupt` can do when it has a step (R281 to R284). -/
theorem fireInterrupt_next {id : Nat} {s t : State wb} {answer : Bool} (h : fireInterrupt c id s = .next (answer, t)) :
    s.run = .running ∧
    ((s.enabled = false ∧ answer = false ∧ t = s) ∨
      (s.enabled = true ∧ answer = true ∧ ∃ entry tBit, c.handler id = some entry ∧
        t = enterInterrupt entry tBit s ∧
        (tBit = true → s.tBit = true ∧ c.intInDelaySlot = .keep) ∧
        (s.tBit = true → c.intInDelaySlot ≠ .refuse))) := by
  unfold fireInterrupt at h
  split at h
  · cases h
  · rename_i handler hh
    split at h
    · rename_i hrun
      refine ⟨hrun, ?_⟩
      cases hen : s.enabled with
      | false =>
        simp only [hen, Bool.false_eq_true, if_false, Host.Outcome.next.injEq, Prod.mk.injEq] at h
        exact .inl ⟨rfl, h.1.symm, h.2.symm⟩
      | true =>
        refine .inr ⟨rfl, ?_⟩
        cases ht : s.tBit <;> cases hi : c.intInDelaySlot <;>
          simp only [hen, ht, hi, if_true, Bool.false_eq_true, if_false, Host.Outcome.next.injEq, Prod.mk.injEq,
            reduceCtorEq] at h <;>
          exact ⟨h.1.symm, handler, _, hh, h.2.symm, by simp_all, by simp_all⟩
    · cases h

end Sys2Proof.Smol2
end

