-- ==== Sys2Proof/Laws/PerInstr.lean ====
section
/-! SUPPORT. A statement made per instruction: the encoder gives every TISA instruction a format T word with its row's
opcode (42_test_isa.md R221, R222), and EXEC-DISPATCH its own word (30_encoding.md R102). -/

namespace Sys2Proof.Laws.FormatT

/-- The `op` byte of the row a constructor stands for, as the table of R222 lists it; EXEC-DISPATCH has none. -/
def opcode : Instr → Option (BitVec 8)
  | .execDispatch _ => none
  | .li _ _ => some 0x01 | .shb _ _ => some 0x02 | .add _ _ => some 0x03 | .sub _ _ => some 0x04
  | .lb _ _ => some 0x05 | .sb _ _ => some 0x06 | .jr _ => some 0x07 | .bz _ _ => some 0x08
  | .ei => some 0x09 | .di => some 0x0A | .rdi _ => some 0x0B | .reti => some 0x0C
  | .nop => some 0x0D | .jalr _ _ => some 0x0E | .addi _ _ => some 0x0F | .halt => some 0xFF

/-- A TISA instruction's word has its row's opcode and a zero `Z` field; EXEC-DISPATCH is its word. -/
def Statement (i : Instr) : Prop :=
  match opcode i with
  | some op => fieldOp (encodeWord i) = op ∧ fieldZ (encodeWord i) = 0
  | none => i = .execDispatch (encodeWord i)

theorem execDispatch (w : InsnWord) : Statement (.execDispatch w) := rfl
theorem li (A : RegisterId) (I : Byte) : Statement (.li A I) := ⟨fieldOp_formatT .., fieldZ_formatT ..⟩
theorem shb (A : RegisterId) (I : Byte) : Statement (.shb A I) := ⟨fieldOp_formatT .., fieldZ_formatT ..⟩
theorem add (A B : RegisterId) : Statement (.add A B) := ⟨fieldOp_formatT .., fieldZ_formatT ..⟩
theorem sub (A B : RegisterId) : Statement (.sub A B) := ⟨fieldOp_formatT .., fieldZ_formatT ..⟩
theorem lb (A B : RegisterId) : Statement (.lb A B) := ⟨fieldOp_formatT .., fieldZ_formatT ..⟩
theorem sb (A B : RegisterId) : Statement (.sb A B) := ⟨fieldOp_formatT .., fieldZ_formatT ..⟩
theorem jr (A : RegisterId) : Statement (.jr A) := ⟨fieldOp_formatT .., fieldZ_formatT ..⟩
theorem bz (A B : RegisterId) : Statement (.bz A B) := ⟨fieldOp_formatT .., fieldZ_formatT ..⟩
theorem ei : Statement .ei := ⟨fieldOp_formatT .., fieldZ_formatT ..⟩
theorem di : Statement .di := ⟨fieldOp_formatT .., fieldZ_formatT ..⟩
theorem rdi (A : RegisterId) : Statement (.rdi A) := ⟨fieldOp_formatT .., fieldZ_formatT ..⟩
theorem reti : Statement .reti := ⟨fieldOp_formatT .., fieldZ_formatT ..⟩
theorem nop : Statement .nop := ⟨fieldOp_formatT .., fieldZ_formatT ..⟩
theorem jalr (A B : RegisterId) : Statement (.jalr A B) := ⟨fieldOp_formatT .., fieldZ_formatT ..⟩
theorem addi (A : RegisterId) (I : Byte) : Statement (.addi A I) := ⟨fieldOp_formatT .., fieldZ_formatT ..⟩
theorem halt : Statement .halt := ⟨fieldOp_formatT .., fieldZ_formatT ..⟩

end Sys2Proof.Laws.FormatT
end

