-- ==== Sys2Proof/Laws/Safety.lean ====
section
/-! SUPPORT. What the counting of events in a trace does with an appended event, and what one `execute_single` can do to the
counter and the trace. -/

namespace Sys2Proof.Smol2

variable {wb : Nat}

/-- An appended event adds its own reason, if it is a panic. -/
@[simp] theorem panics_append (tr : List (Event wb)) (e : Event wb) : panics (tr ++ [e]) = panics tr ++ panics [e] := by
  induction tr with
  | nil => rfl
  | cons a tr ih => cases a <;> simp only [List.cons_append, panics, ih, List.cons_append]

/-- An appended event adds one, if it is a keepalive. -/
@[simp] theorem keepalives_append (tr : List (Event wb)) (e : Event wb) :
    keepalives (tr ++ [e]) = keepalives tr + keepalives [e] := by
  induction tr with
  | nil => simp only [List.nil_append, keepalives, Nat.zero_add]
  | cons a tr ih => cases a <;> (simp only [List.cons_append, keepalives, ih]; try omega)

/-- A next state of `execute_single` comes from `Running`, and it is a fault or a counted cycle that has advanced `rip` as
R150 says. -/
theorem executeSingle_next (c : Config wb) (E : Exec wb) {s t : State wb} (h : executeSingle c E s = .next t) :
    s.run = .running ∧ ((∃ r, t.run = .faulted r) ∨
      (t.executedOps = s.executedOps + 1 ∧ t.trace = s.trace ++ [.keepalive] ∧
        t.rip = advance s.tBit s.nextRip s.rip)) := by
  unfold executeSingle cycleWith at h
  cases hr : s.run <;> simp only [hr, reduceCtorEq] at h
  refine ⟨rfl, ?_⟩
  rcases fetchInstruction_cases c s with ⟨_, hf⟩ | ⟨k, kind, _, _, _, hf⟩ <;> simp only [hf] at h <;>
    injection h with h <;> subst h
  · rcases runCycle_cases c (wordAt c s s.rip.toNat) (E (wordAt c s s.rip.toNat))
      { s with currentInstruction := some (wordAt c s s.rip.toNat) } with
      ⟨t, sched, halting, he, hb, _, htr⟩ | ⟨r, _, hrun, _⟩
    · rw [he]
      have hops := hb.executedOps
      right
      cases halting <;> cases sched <;>
        simp [completeCycle, State.emit, State.recordTransfer, htr, hops]
    · exact .inl ⟨r, hrun⟩
  · exact .inl ⟨_, rfl⟩

end Sys2Proof.Smol2
end

