-- ==== Sys2Proof/Tests/Slice0.lean ====
section
/-! SUPPORT. Tests whose expected results come from the spec (the encoding lines of 42_test_isa.md and the vectors of
95_test_vectors.md, named in each comment), and the witnesses of the statements that have hypotheses. -/

namespace Sys2Proof.Tests
open Sys2Proof.Smol2 Sys2Proof.Machine

/-! ## Helpers -/

/-- The next state of an outcome, if there is one. -/
def nextOf {σ : Type} : Host.Outcome σ Fault Refusal → Option σ
  | .next t => some t
  | _ => none

/-- The refusal of an outcome, if there is one. -/
def refusalOf {σ : Type} : Host.Outcome σ Fault Refusal → Option Refusal
  | .refused r => some r
  | _ => none

/-- The state after the step that runs a word from a state. -/
def after (s : State) (w : Nat) : Option State := nextOf (step (s.withFetchWord 32 w))

/-- The reset state at another `rip`. -/
def bootedAt (rip : Word 16) : State := { State.reset with rip := rip }

/-- The reset state with one register set. -/
def withReg (i : RegisterId) (v : Word 16) : State := State.reset.setReg i v

/-- A state with a pending transfer: `rip = 0x14`, `next_rip = 0x40`, `t_bit = 1`, interrupts enabled (V-INT-5). -/
def inDelaySlot : State := { bootedAt 0x14 with nextRip := 0x40, tBit := true, enabled := true }

/-- The TISA configuration under `big`. -/
def bigConfig : Config 16 := { Config.tisa with fetchOrder := .big }

/-- The TISA configuration with one denied access. -/
def denying (a : Nat) (k : Access) : Config 16 := { Config.tisa with permits := fun x j => !(x == a && j == k) }

/-- The TISA configuration with another `INT_IN_DELAY_SLOT`. -/
def delaySlotConfig (p : IntInDelaySlot) : Config 16 := { Config.tisa with intInDelaySlot := p }

/-- The TISA configuration with the whole 16-bit address space. -/
def fullConfig : Config 16 := { Config.tisa with memSize := 0x10000 }

/-- One cycle of the core with TISA under a configuration. -/
def cycle (c : Config 16) (s : State) : Option State := nextOf (executeSingle c tisaExec s)

/-- A state with bytes laid at address 0. -/
def holding (bytes : List Byte) : State := { State.reset with mem := Memory.place (fun _ => 0) 0x100 [] 0 bytes }

/-! ## Well-formedness -/

/-- The one check refuses an `execDispatch` that carries a TISA word (NOP), and lets an undefined word through. -/
theorem test_wf_refuses_dispatch_of_nop : (Instr.execDispatch 0x0D000000).wf = false := by decide
theorem test_wf_refuses_dispatch_of_li : (Instr.execDispatch 0x0110002A).wf = false := by decide
theorem test_wf_accepts_dispatch_of_undefined : (Instr.execDispatch 0x0D000001).wf = true := by decide

/-! ## Decoding: one word of each row, written out from the row's encoding line -/

-- 0x01 A 0 00 I with A = 5, I = 0x14 (P1: li r5, loop = 0x01500014).
theorem test_decode_li : decodeTableWord 32 0x01500014 = some (.li 5 0x14) := by decide
-- 0x02 A 0 00 I (R224).
theorem test_decode_shb : decodeTableWord 32 0x02400034 = some (.shb 4 0x34) := by decide
-- 0x03 A B 00 00 (P2: add r2, r3).
theorem test_decode_add : decodeTableWord 32 0x03230000 = some (.add 2 3) := by decide
-- 0x04 A B 00 00 (R226: sub r3, r4).
theorem test_decode_sub : decodeTableWord 32 0x04340000 = some (.sub 3 4) := by decide
-- 0x05 A B 00 00 (P2: lb r3, [r4]).
theorem test_decode_lb : decodeTableWord 32 0x05340000 = some (.lb 3 4) := by decide
-- 0x06 A B 00 00 (P2: sb r1, [r4]).
theorem test_decode_sb : decodeTableWord 32 0x06140000 = some (.sb 1 4) := by decide
-- 0x07 A 0 00 00 (P5: jr r6).
theorem test_decode_jr : decodeTableWord 32 0x07600000 = some (.jr 6) := by decide
-- 0x08 A B 00 00 (P1: bz r1, r6).
theorem test_decode_bz : decodeTableWord 32 0x08160000 = some (.bz 1 6) := by decide
-- R231 to R236.
theorem test_decode_ei : decodeTableWord 32 0x09000000 = some .ei := by decide
theorem test_decode_di : decodeTableWord 32 0x0A000000 = some .di := by decide
theorem test_decode_rdi : decodeTableWord 32 0x0B800000 = some (.rdi 8) := by decide
theorem test_decode_reti : decodeTableWord 32 0x0C000000 = some .reti := by decide
theorem test_decode_nop : decodeTableWord 32 0x0D000000 = some .nop := by decide
theorem test_decode_halt : decodeTableWord 32 0xFF000000 = some .halt := by decide
-- 0x0E A B 00 00 (P5: jalr r6, r5).
theorem test_decode_jalr : decodeTableWord 32 0x0E650000 = some (.jalr 6 5) := by decide
-- 0x0F A 0 00 I (P2: addi r4, -1).
theorem test_decode_addi : decodeTableWord 32 0x0F4000FF = some (.addi 4 0xFF) := by decide
-- V-FLT-1 to V-FLT-5: undefined words go whole to EXEC.
theorem test_decode_execDispatch : decodeTableWord 32 0x00000000 = some (.execDispatch 0x00000000) := by decide
theorem test_decode_undefined_words :
    [0x01100100, 0x01110000, 0x0D000001, 0x10000000, 0xFE000000].map (fun w => decodeTableWord 32 w) =
      [0x01100100, 0x01110000, 0x0D000001, 0x10000000, 0xFE000000].map (fun w => some (.execDispatch (BitVec.ofNat 32 w))) := by
  decide
-- P1 to P5: the encoder gives the programs' words.
theorem test_encode_words :
    [Instr.li 5 0x14, .sub 1 2, .bz 1 6, .addi 3 2, .jr 5, .sb 1 4, .rdi 8, .jalr 6 5].map encodeWord =
      [0x01500014, 0x04120000, 0x08160000, 0x0F300002, 0x07500000, 0x06140000, 0x0B800000, 0x0E650000] := by decide
-- P1: the bytes of `li r1, 3` in memory, under `little` and reversed under `big`.
theorem test_encode_bytes_little : encode .little (.li 1 3) = [0x03, 0x00, 0x10, 0x01] := by decide
theorem test_encode_bytes_big : encode .big (.li 1 3) = [0x01, 0x10, 0x00, 0x03] := by decide
theorem test_decode_truncated : decode .little [0x2A, 0x00, 0x10] = .error .truncated := by decide

/-! ## TISA instructions, at most two tests each (95_test_vectors.md) -/

-- V-T-LI-2.
theorem test_li_no_sign_extension : (after State.reset 0x011000FF).map (·.reg 1) = some 0x00FF := by decide
-- V-T-SHB-1.
theorem test_shb_loses_old_high_byte : (after (withReg 1 0xAB12) 0x02100034).map (·.reg 1) = some 0x1234 := by decide
-- V-T-ADD-1.
theorem test_add_wraps : (after ((withReg 1 0xFFFF).setReg 2 1) 0x03120000).map (·.reg 1) = some 0 := by decide
-- V-REG-4.
theorem test_add_same_register_doubles : (after (withReg 1 0x1234) 0x03110000).map (·.reg 1) = some 0x2468 := by decide
-- V-T-SUB-1.
theorem test_sub_borrows : (after (withReg 4 1) 0x04340000).map (·.reg 3) = some 0xFFFF := by decide
-- V-T-LB-2: the address register is the destination.
theorem test_lb_own_address_register :
    (after ({ withReg 1 0x40 with mem := [(0x40, 0x9C)] }) 0x05110000).map (·.reg 1) = some 0x009C := by decide
-- V-FLT-6: the fault keeps x[1], rip and the count.
theorem test_lb_out_of_bounds :
    (after ({ (withReg 2 0x100).setReg 1 7 with rip := 8 }) 0x05120000).map
      (fun t => ((t.run, t.trace), t.reg 1, t.rip, t.currentInstruction, t.executedOps)) =
    some ((.faulted (.accessFault .outOfBounds 0x100 .read), [.panic (.accessFault .outOfBounds 0x100 .read)]),
      7, 8, some 0x05120000, 0) := by decide
-- V-T-SB-1.
theorem test_sb_stores_low_byte :
    (after ((withReg 1 0x1234).setReg 2 0x50) 0x06120000).map (·.byteAt Config.tisa 0x50) = some 0x34 := by decide
-- V-FLT-7.
theorem test_sb_out_of_bounds :
    (after ((withReg 1 0x1234).setReg 2 0x200) 0x06120000).map (fun t => (t.run, t.byteAt Config.tisa 0x50)) =
      some (.faulted (.accessFault .outOfBounds 0x200 .write), 0) := by decide
-- V-T-JR-1.
theorem test_jr_schedules :
    (after ({ withReg 5 0x40 with rip := 0x10 }) 0x07500000).map (fun t => (t.rip, t.nextRip, t.tBit)) =
      some (0x14, 0x40, true) := by decide
-- V-CYC-3, second cycle: a JR in a delay slot chains.
theorem test_jr_in_delay_slot_chains :
    (after ({ withReg 6 0x60 with rip := 0x14, nextRip := 0x40, tBit := true }) 0x07600000).map
      (fun t => (t.rip, t.nextRip, t.tBit)) = some (0x40, 0x60, true) := by decide
-- V-T-BZ-1 and V-T-BZ-2.
theorem test_bz_taken :
    (after ({ withReg 5 0x30 with rip := 8 }) 0x08150000).map (fun t => (t.rip, t.nextRip, t.tBit)) =
      some (0x0C, 0x30, true) := by decide
theorem test_bz_not_taken :
    (after ({ (withReg 5 0x30).setReg 1 5 with rip := 8 }) 0x08150000).map (fun t => (t.rip, t.nextRip, t.tBit)) =
      some (0x0C, 0, false) := by decide
-- V-T-EI-1 and V-T-DI-1.
theorem test_ei_enables : (after State.reset 0x09000000).map (·.enabled) = some true := by decide
theorem test_di_disables :
    (after ({ State.reset with enabled := true }) 0x0A000000).map
      (fun t => (t.enabled, (nextOf (fireInterrupt Config.tisa 0 t)).map (·.1))) = some (false, some false) := by decide
-- V-T-RDI-1.
theorem test_rdi_reads_intret :
    (after ({ State.reset with intret := 0x18 }) 0x0B700000).map (·.reg 7) = some 0x18 := by decide
-- V-INT-9.
theorem test_reti_schedules_and_enables :
    (after ({ bootedAt 0x88 with intret := 0x0C }) 0x0C000000).map (fun t => (t.enabled, t.tBit, t.nextRip, t.rip)) =
      some (true, true, 0x0C, 0x8C) := by decide
-- V-T-NOP-1: nothing else changes, so the whole state is compared.
theorem test_nop_only_advances :
    after (bootedAt 0x10) 0x0D000000 = some { (bootedAt 0x10).withFetchWord 32 0x0D000000 with
      rip := 0x14, currentInstruction := some 0x0D000000, executedOps := 1, trace := [.keepalive] } := by decide
-- V-T-JALR-2: the target is read first.
theorem test_jalr_same_register :
    (after ({ withReg 5 0x60 with rip := 0x10 }) 0x0E550000).map (fun t => (t.reg 5, t.nextRip, t.tBit, t.rip)) =
      some (0x18, 0x60, true, 0x14) := by decide
-- V-T-ADDI-2 and V-T-ADDI-3.
theorem test_addi_sign_extends : (after State.reset 0x0F200080).map (·.reg 2) = some 0xFF80 := by decide
theorem test_addi_wraps : (after (withReg 2 0xFFFF) 0x0F200001).map (·.reg 2) = some 0 := by decide
-- V-CYC-5.
theorem test_halt_completes :
    (after (bootedAt 0x20) 0xFF000000).map (fun t => (t.rip, t.run, t.executedOps, t.trace)) =
      some (0x24, .halted, 1, [.keepalive]) := by decide
-- V-CYC-6, third cycle: HALT in a delay slot.
theorem test_halt_in_delay_slot :
    (after ({ bootedAt 8 with nextRip := 0x40, tBit := true }) 0xFF000000).map (fun t => (t.rip, t.tBit, t.run)) =
      some (0x40, false, .halted) := by decide
-- V-FLT-1 and V-FLT-8.
theorem test_dispatch_undefined :
    (after ({ bootedAt 0x10 with enabled := true }) 0x00000000).map
      (fun t => (t.run, t.rip, t.executedOps, t.enabled, t.trace)) =
    some (.faulted (.undefinedOpcode 0 0x10), 0x10, 0, true, [.panic (.undefinedOpcode 0 0x10)]) := by decide
theorem test_dispatch_undefined_in_delay_slot :
    (after ({ bootedAt 0x14 with nextRip := 0x40, tBit := true }) 0x00000000).map
      (fun t => (t.run, t.rip, t.nextRip, t.tBit)) =
    some (.faulted (.undefinedOpcode 0 0x14), 0x14, 0x40, true) := by decide

/-! ## The core -/

-- V-MEM-1 to V-MEM-6.
theorem test_mmu_last_byte :
    Mmu.read Config.tisa { State.reset with mem := [(0xFF, 0x11)] } 0xFF = .success (some 0x11) := by decide
theorem test_mmu_one_past_the_end : Mmu.read Config.tisa State.reset 0x100 = .fault .outOfBounds 0x100 .read := by decide
theorem test_mmu_denied_write :
    Mmu.write (denying 0x20 .write) State.reset 0x20 1 = (.fault .protection 0x20 .write, State.reset) := by decide
theorem test_mmu_bounds_before_permission :
    Mmu.read (denying 0x100 .read) State.reset 0x100 = .fault .outOfBounds 0x100 .read := by decide
-- V-MEM-8: a 4-byte write at 0xFE keeps its first two bytes and faults at 0x100.
theorem test_multibyte_write_stops :
    (fun r : Bool × State => (r.1, r.2.mem, r.2.run)) (memWriteN Config.tisa [1, 2, 3, 4] 0xFE State.reset) =
      (false, [(0xFE, 1), (0xFF, 2)], .faulted (.accessFault .outOfBounds 0x100 .write)) := by decide
-- Writing what an unlisted byte reads as removes its cell.
theorem test_memory_canonical : Memory.set (fun _ => 0) [(1, 5), (2, 6)] 1 0 = [(2, 6)] := by decide
-- V-FET-2 and V-FET-3.
theorem test_fetch_big :
    (cycle bigConfig (holding [0x01, 0x10, 0x00, 0x2A])).map (fun t => (t.currentInstruction, t.reg 1, t.rip)) =
      some (some 0x0110002A, 0x2A, 4) := by decide
theorem test_fetch_big_undefined :
    (cycle bigConfig (holding [0x2A, 0x00, 0x10, 0x01])).map (·.run) =
      some (.faulted (.undefinedOpcode 0x2A001001 0)) := by decide
-- V-FET-4: the first failing byte, no word, no advance.
theorem test_fetch_at_the_edge :
    (nextOf (step (bootedAt 0xFE))).map (fun t => (t.run, t.currentInstruction, t.rip, t.executedOps, t.trace)) =
      some (.faulted (.accessFault .outOfBounds 0x100 .read), none, 0xFE, 0,
        [.panic (.accessFault .outOfBounds 0x100 .read)]) := by decide
-- V-FET-6.
theorem test_fetch_unaligned : (after (bootedAt 2) 0x0D000000).map (·.rip) = some 6 := by decide
-- V-FET-7.
theorem test_fetch_denied :
    (cycle (denying 1 .read) State.reset).map (fun t => (t.run, t.currentInstruction)) =
      some (.faulted (.accessFault .protection 1 .read), none) := by decide
-- V-RST-2.
theorem test_fetch_tiny_memory :
    (cycle { Config.tisa with memSize := 2 } State.reset).map (·.run) =
      some (.faulted (.accessFault .outOfBounds 2 .read)) := by decide
-- V-CYC-9 and V-T-JALR-3: the Word wraps.
theorem test_advance_wraps :
    (cycle fullConfig { bootedAt 0xFFFC with mem := [(0xFFFF, 0x0D)] }).map (·.rip) = some 0x0000 := by decide
theorem test_jalr_link_wraps :
    (cycle fullConfig ({ withReg 5 0x20 with rip := 0xFFFC, mem := [(0xFFFE, 0x65), (0xFFFF, 0x0E)] })).map
      (fun t => (t.reg 6, t.rip, t.nextRip, t.tBit)) = some (0x0004, 0x0000, 0x20, true) := by decide
-- V-CYC-7, V-CYC-8, V-CYC-11, V-FLT-9, V-INT-8: no step.
theorem test_no_step_in_halted : refusalOf (step { State.reset with run := .halted }) = some .executeInHalted := by decide
theorem test_no_step_in_idle : refusalOf (step { State.reset with run := .idle }) = some .executeInIdle := by decide
theorem test_no_reboot_mid_run :
    refusalOf (step { State.reset with currentInstruction := some 0x0D000000, host := [.boot 7] }) =
      some .rebootMidRun := by decide
theorem test_no_boot_after_fault :
    refusalOf (boot Config.tisa 7 { State.reset with run := .faulted (.undefinedOpcode 0 0) }) =
      some .bootAfterEnd := by decide
theorem test_no_interrupt_in_halted :
    refusalOf (fireInterrupt Config.tisa 0 { State.reset with run := .halted, enabled := true }) =
      some .interruptNotRunning := by decide
-- V-CYC-10.
theorem test_boot_again :
    nextOf (step { State.reset with host := [.boot 7] }) = some { State.reset with startTimestamp := 7 } := by decide
-- V-CYC-12, third cycle: the store is seen by the next fetch.
theorem test_self_modifying :
    (after ({ (withReg 1 0x0D).setReg 2 0x0F with rip := 8, mem := [(0x0F, 0xFE)] }) 0x06120000).bind
      (fun t => (nextOf (step t)).map (fun u => (u.currentInstruction, u.run))) =
    some (some 0x0D000000, .running) := by decide
-- V-INT-1, through the host's script: the answer goes to the host and nothing else changes.
theorem test_interrupt_disabled :
    nextOf (step { State.reset with host := [.fireInterrupt 1] }) =
      some { State.reset with replies := [false] } := by decide
-- V-INT-3.
theorem test_interrupt_entry :
    (nextOf (step { bootedAt 0x18 with enabled := true, host := [.fireInterrupt 2] })).map
      (fun t => ((t.intret, t.enabled, t.executedOps, t.replies), t.rip, t.nextRip, t.tBit)) =
    some ((0x18, false, 0, [true]), 0xA0, 0xA0, false) := by decide
-- V-INT-5 to V-INT-7, the entry alone.
theorem test_interrupt_refuse :
    refusalOf (fireInterrupt Config.tisa 0 inDelaySlot) = some .interruptInDelaySlot := by decide
theorem test_interrupt_clear :
    (nextOf (fireInterrupt (delaySlotConfig .clear) 0 inDelaySlot)).map
      (fun r => (r.1, r.2.intret, r.2.rip, r.2.nextRip, r.2.tBit)) = some (true, 0x14, 0x80, 0x80, false) := by decide
theorem test_interrupt_keep :
    (nextOf (fireInterrupt (delaySlotConfig .keep) 0 inDelaySlot)).map
      (fun r => (r.1, r.2.intret, r.2.rip, r.2.nextRip, r.2.tBit)) = some (true, 0x14, 0x80, 0x80, true) := by decide
-- R279: an id outside IRQ_ID.
theorem test_interrupt_bad_id : refusalOf (fireInterrupt Config.tisa 4 State.reset) = some .notAnInterruptId := by decide
-- R271: the numeric codes.
theorem test_fault_codes :
    [FaultReason.accessFault .outOfBounds 0 .read, .accessFault .misaligned 0 .read, .accessFault .protection 0 .read,
      .undefinedOpcode 0 0, .execFault "what" 0 0, .accessFault (.ext 2) 0 .read].map (FaultReason.code (wb := 16)) =
    [1, 2, 3, 4, 5, 18] := by decide
-- R6: the TISA configuration meets the constraints on the parameters.
theorem test_tisa_configuration_valid : Config.tisa.Valid := by simp only [Config.Valid, Config.tisa]; decide
-- R69: an extended Mmu's own fault kind.
theorem test_extended_mmu :
    Mmu.read { Config.tisa with extFault := fun a _ => if a % 2 = 1 then some .misaligned else none } State.reset 3 =
      .fault .misaligned 3 .read := by decide
-- V-T-RDI-2, with the fixed machine's INTRET0 (log 4).
theorem test_reset_is_boot :
    (construct Config.tisa []).bind (fun s => nextOf (boot Config.tisa 0 s)) = some State.reset := by decide

/-! ## The assembler (V-LNK) -/

open Assembler in
/-- A program's tokens, one to a line, lines counted from 1. -/
def program (ts : List Token) : List (Nat × Lexeme) := (ts.zipIdx 1).map fun p => (p.2, Lexeme.token p.1)

/-- The image of an assembly, if there is one. -/
def imageOf {ε α β : Type} : Except ε (α × β) → Option α
  | .ok r => some r.1
  | .error _ => none

open Assembler in
/-- The errors of an assembly. -/
def errorsOf {β : Type} : Except (List AsmError × AsmState) β → List AsmError
  | .ok _ => []
  | .error e => e.1

open Assembler in
/-- V-LNK-1: the forward reference and the literal give the same bytes. -/
theorem test_link_forward_reference :
    imageOf (assemble 16 "a" (program [tisaToken .little (.liLabel 5 "tgt"), tisaToken .little (.plain .nop),
      .labelDecl "tgt", tisaToken .little (.plain .halt), .finish])) =
    some [0x08, 0x00, 0x50, 0x01, 0x00, 0x00, 0x00, 0x0D, 0x00, 0x00, 0x00, 0xFF] := by decide

open Assembler in
/-- V-LNK-3: the unresolved symbol is reported at line 1 and there is no launch. -/
theorem test_link_unresolved :
    errorsOf (assemble 16 "a" (program [tisaToken .little (.liLabel 5 "nowhere"), tisaToken .little (.plain .halt)])) =
      [.unresolved ⟨"a", 1, 0⟩ "nowhere"] ∧
    launch Config.tisa "a" (program [tisaToken .little (.liLabel 5 "nowhere"), tisaToken .little (.plain .halt)]) =
      none := by decide

open Assembler in
/-- V-LNK-4: the second declaration is refused at its line. -/
theorem test_link_redefinition :
    errorsOf (assemble 16 "a" (program [.labelDecl "a", tisaToken .little (.plain .nop), .labelDecl "a"])) =
      [.redefinition ⟨"a", 3, 4⟩ "a"] := by decide

open Assembler in
/-- V-LNK-5, with `buf` at 0x08: the high byte is 0x00 and the low byte the label's. -/
theorem test_link_select_offset :
    imageOf (assemble 16 "a" (program [.selectOffset 8, tisaToken .little (.liLabel 4 "buf"), .selectOffset 0,
      tisaToken .little (.shbLabel 4 "buf"), .labelDecl "buf"])) =
    some [0x00, 0x00, 0x40, 0x01, 0x08, 0x00, 0x40, 0x02] := by decide

open Assembler in
/-- V-LNK-6 and V-LNK-7: a selection that is no multiple of 8, or is not below `WORD_BITS`, is refused. -/
theorem test_link_bad_selection :
    errorsOf (assemble 16 "a" (program [.selectOffset 4])) = [.badSelectOffset ⟨"a", 1, 0⟩ 4] ∧
    errorsOf (assemble 16 "a" (program [.selectOffset 16])) = [.badSelectOffset ⟨"a", 1, 0⟩ 16] := by decide

open Assembler in
/-- V-LNK-8: an included file moves the label to 3. -/
theorem test_link_binary_include :
    imageOf (assemble 16 "a" (program [.binaryInclude [0, 0, 0], .labelDecl "L", tisaToken .little (.liLabel 1 "L")])) =
      some [0x00, 0x00, 0x00, 0x03, 0x00, 0x10, 0x01] := by decide

open Assembler in
/-- V-LNK-10: an unrecognized token at offset 4. -/
theorem test_link_unexpected_token :
    errorsOf (assemble 16 "a" [(1, .token (tisaToken .little (.plain .nop))), (2, .unrecognized)]) =
      [.unexpectedToken ⟨"a", 2, 4⟩] := by decide

open Assembler in
/-- R116: two usages at one offset are refused (they cannot be made with TISA, so the usages are written out). -/
theorem test_link_overlap : disjointUsages [⟨⟨"a", 1, 0⟩, "x", 0, 3, false⟩, ⟨⟨"a", 2, 0⟩, "y", 0, 3, false⟩] = false := by
  decide

/-! ## Witnesses: for each statement with hypotheses, a state and operands that meet all of them -/

/-- An operation that has a next state answers it. -/
theorem next_of_isSome {σ : Type} (o : Host.Outcome σ Fault Refusal) (h : (nextOf o).isSome = true) :
    o = .next ((nextOf o).get h) := by
  cases o with
  | next t => rfl
  | fault f => cases h
  | refused r => cases h

/-- A running core is not faulted. -/
theorem not_faulted {s : State} (h : s.run = .running) (r : FaultReason 16) : s.run ≠ .faulted r := by
  simp only [h, ne_eq, reduceCtorEq, not_false_eq_true]

/-- Two words in memory: `jr r0` at 0, NOP at 4. -/
def jumpAndNop : State := holding [0x00, 0x00, 0x00, 0x07, 0x00, 0x00, 0x00, 0x0D]

/-- `jumpAndNop` after its first cycle. -/
def afterJump : State := (cycle Config.tisa jumpAndNop).get (by decide)

/-- `jumpAndNop` after its second cycle. -/
def afterNop : State := (cycle Config.tisa afterJump).get (by decide)

theorem baseMmu_tisa : Config.tisa.BaseMmu := fun _ _ => rfl
theorem baseMmu_denying (a : Nat) (k : Access) : (denying a k).BaseMmu := fun _ _ => rfl

theorem witness_DecodeOfEncodeIsIdentity :
    (Instr.execDispatch 0xFFFFFFFF).wf = true ∧ (Instr.li 15 0xFF).wf = true := by decide
theorem witness_DecodeFollowsTheOpcodeTable_undefined :
    tisaDefines 0x00FFFFFF = false ∧ fieldOp 0x00FFFFFF = 0 ∧
    (0x10 ≤ (fieldOp 0x10000000).toNat ∧ (fieldOp 0x10000000).toNat ≤ 0xFE) ∧
    (0x10 ≤ (fieldOp 0xFEFFFFFF).toNat ∧ (fieldOp 0xFEFFFFFF).toNat ≤ 0xFE) := by decide
theorem witness_DecodeFollowsTheOpcodeTable_exec : (Instr.halt).wf = true := by decide
theorem witness_RegisterReadAfterWrite : (14 : RegisterId) ≠ 15 ∧ (15 : RegisterId) ≠ 0 := by decide
theorem witness_MmuReadChecksBoundsThenPermission : Config.tisa.BaseMmu ∧ (denying 0xFF .read).BaseMmu :=
  ⟨baseMmu_tisa, baseMmu_denying _ _⟩
theorem witness_MmuWriteChangesOneByteOrNothing_written :
    Config.tisa.BaseMmu ∧ 0xFF < Config.tisa.memSize ∧ Config.tisa.permits 0xFF .write = true :=
  ⟨baseMmu_tisa, by decide, rfl⟩
theorem witness_MmuWriteChangesOneByteOrNothing_bounds : Config.tisa.BaseMmu ∧ 0x100 ≥ Config.tisa.memSize :=
  ⟨baseMmu_tisa, by decide⟩
theorem witness_MmuWriteChangesOneByteOrNothing_denied :
    (denying 0xFF .write).BaseMmu ∧ 0xFF < (denying 0xFF .write).memSize ∧ (denying 0xFF .write).permits 0xFF .write = false :=
  ⟨baseMmu_denying _ _, by decide, by decide⟩
theorem witness_MultiByteAccessStopsAtFirstFault_passes :
    (∀ k < 4, Mmu.check Config.tisa (0xFC + k) .read = none) ∧
    ∀ k < [1, 2, 3, (4 : Byte)].length, Mmu.check Config.tisa (0xFC + k) .write = none := by decide
theorem witness_MultiByteAccessStopsAtFirstFault_read :
    2 < 4 ∧ (∀ j < 2, Mmu.check Config.tisa (0xFE + j) .read = none) ∧
    Mmu.check Config.tisa (0xFE + 2) .read = some .outOfBounds := by decide
theorem witness_MultiByteAccessStopsAtFirstFault_write :
    3 < [1, 2, 3, (4 : Byte)].length ∧ (∀ j < 3, Mmu.check (denying 3 .write) (0 + j) .write = none) ∧
    Mmu.check (denying 3 .write) (0 + 3) .write = some .protection := by decide
theorem witness_MultiByteAccessStopsAtFirstFault_outside : Config.tisa.memSize ≤ 0x100 := by decide
theorem witness_CanonicalMemoryIsUnique :
    Memory.wf (fun _ => 0) 0x100 [(0, 1), (0xFF, 2)] ∧
    ∀ a, Memory.get (fun _ => 0) [(0, 1), (0xFF, 2)] a = Memory.get (fun _ => 0) [(0, 1), (0xFF, 2)] a :=
  ⟨by decide, fun _ => rfl⟩
theorem witness_ConstructLoadsTheImage :
    (List.replicate 0x100 (0xAA : Byte)).length ≤ Config.tisa.memSize ∧
    Config.tisa.memSize < (List.replicate 0x101 (0xAA : Byte)).length := by
  simp only [List.length_replicate, Config.tisa]; decide
theorem witness_BootInitialisesEveryField :
    (State.unloaded 16).run = .idle ∧ State.reset.run = .running ∧ State.reset.currentInstruction = none := by decide
theorem witness_BootAdmittedOnlyBeforeTheFirstCycle : ∃ t, boot Config.tisa 7 State.reset = .next t := ⟨_, rfl⟩
theorem witness_FetchReadsFourBytesAtRip_word :
    Config.tisa.BaseMmu ∧ (bootedAt 0xFC).rip.toNat + 3 < Config.tisa.memSize ∧
    ∀ k < 4, Config.tisa.permits ((bootedAt 0xFC).rip.toNat + k) .read = true :=
  ⟨baseMmu_tisa, by decide, fun _ _ => rfl⟩
theorem witness_FetchReadsFourBytesAtRip_bounds :
    Config.tisa.BaseMmu ∧ 3 < 4 ∧ max (bootedAt 0xFD).rip.toNat Config.tisa.memSize = (bootedAt 0xFD).rip.toNat + 3 ∧
    (∀ j < 3, Config.tisa.permits ((bootedAt 0xFD).rip.toNat + j) .read = true) ∧
    max (bootedAt 0xFFFF).rip.toNat Config.tisa.memSize = (bootedAt 0xFFFF).rip.toNat + 0 :=
  ⟨baseMmu_tisa, by decide, by decide, fun _ _ => rfl, by decide⟩
theorem witness_FetchReadsFourBytesAtRip_denied :
    (denying 1 .read).BaseMmu ∧ 1 < 4 ∧ State.reset.rip.toNat + 1 < (denying 1 .read).memSize ∧
    (denying 1 .read).permits (State.reset.rip.toNat + 1) .read = false ∧
    ∀ j < 1, (denying 1 .read).permits (State.reset.rip.toNat + j) .read = true :=
  ⟨baseMmu_denying _ _, by decide, by decide, by decide, by decide⟩
theorem witness_FetchFailureEndsTheCycle :
    (bootedAt 0x100).run = .running ∧ (fetchInstruction Config.tisa (bootedAt 0x100)).1 = none := by decide
theorem witness_WholeWordGoesToTheCollaborator :
    (bootedAt 0xFC).run = .running ∧ ∀ k < 4, Mmu.check Config.tisa ((bootedAt 0xFC).rip.toNat + k) .read = none := by
  decide
theorem witness_CompletedCycleAdvancesCountsAndHalts :
    runBody Config.tisa 0 inDelaySlot.rip inDelaySlot.tBit (.schedule 0x60 (.halt .done)) inDelaySlot none false =
      .completed inDelaySlot (some 0x60) true := rfl
theorem witness_BodyFaultEndsTheCycle :
    runBody Config.tisa 0 inDelaySlot.rip inDelaySlot.tBit .undefined inDelaySlot none false =
      .aborted (fireException (.undefinedOpcode 0 inDelaySlot.rip) inDelaySlot) ∧
    Config.tisa.memSize ≤ (0x100 : Word 16).toNat := ⟨rfl, by decide⟩
theorem witness_TransferTakesEffectAfterOneDelaySlot :
    executeSingle Config.tisa tisaExec jumpAndNop = .next afterJump ∧ afterJump.run = .running ∧
    executeSingle Config.tisa tisaExec afterJump = .next afterNop ∧ (∀ r, afterNop.run ≠ .faulted r) ∧
    afterJump.tBit = true :=
  ⟨next_of_isSome _ (by decide), by decide, next_of_isSome _ (by decide),
    not_faulted (by decide), by decide⟩
theorem witness_TransferTakesEffectAfterOneDelaySlot_none :
    executeSingle Config.tisa tisaExec afterJump = .next afterNop ∧ afterNop.run = .running ∧ afterNop.tBit = false ∧
    ∃ u, executeSingle Config.tisa tisaExec afterNop = .next u ∧ ∀ r, u.run ≠ .faulted r :=
  ⟨next_of_isSome _ (by decide), by decide, by decide, (cycle Config.tisa afterNop).get (by decide),
    next_of_isSome _ (by decide), not_faulted (by decide)⟩
theorem witness_EveryFaultFreeCycleIsCounted :
    cycles Config.tisa tisaExec 2 jumpAndNop = .next ((nextOf (cycles Config.tisa tisaExec 2 jumpAndNop)).get (by decide)) ∧
    ∀ r, ((nextOf (cycles Config.tisa tisaExec 2 jumpAndNop)).get (by decide)).run ≠ .faulted r :=
  ⟨next_of_isSome _ (by decide), not_faulted (by decide)⟩
theorem witness_EveryFaultFreeCycleIsCounted_faulted :
    ∃ t, executeSingle Config.tisa tisaExec State.reset = .next t ∧ t.run = .faulted (.undefinedOpcode 0 0) :=
  ⟨(cycle Config.tisa State.reset).get (by decide), next_of_isSome _ (by decide), by decide⟩
theorem witness_NoCollaboratorReachesHostState :
    executeSingle Config.tisa tisaExec jumpAndNop = .next afterJump ∧
    Memory.wf Config.tisa.initMem Config.tisa.memSize jumpAndNop.mem := ⟨next_of_isSome _ (by decide), by decide⟩
theorem witness_HiddenFieldsCannotBeObserved :
    jumpAndNop.visible = ({ jumpAndNop with executedOps := 5, startTimestamp := 9, replies := [true] } : State).visible ∧
    executeSingle Config.tisa tisaExec jumpAndNop = .next afterJump ∧
    ∃ t, executeSingle Config.tisa tisaExec { jumpAndNop with executedOps := 5, startTimestamp := 9, replies := [true] } =
      .next t :=
  ⟨rfl, next_of_isSome _ (by decide), _, next_of_isSome _ (by decide)⟩
theorem witness_FaultedAndHaltedAreTerminal :
    ({ State.reset with run := .halted } : State).run.ended = true ∧
    ({ State.reset with run := .faulted (.undefinedOpcode 0 0) } : State).run.ended = true := by decide
theorem witness_AtMostOnePanicPerRun :
    construct Config.tisa [] = some (State.unloaded 16) ∧
    ∃ t, coreRun Config.tisa tisaExec 2 { State.unloaded 16 with host := [.boot 0] } = .next t ∧
      t.run = .faulted (.undefinedOpcode 0 0) :=
  ⟨by decide, (nextOf (coreRun Config.tisa tisaExec 2 { State.unloaded 16 with host := [.boot 0] })).get (by decide),
    next_of_isSome _ (by decide), by decide⟩
theorem witness_DisabledInterruptIsIgnoredAndNotLatched :
    Config.tisa.handler 3 = some 0xB0 ∧ State.reset.run = .running ∧ State.reset.enabled = false ∧
    ∃ t, fireInterrupt Config.tisa 0 { bootedAt 0x18 with enabled := true } = .next (true, t) :=
  ⟨by decide, by decide, by decide, _, rfl⟩
theorem witness_InterruptEntrySavesRipAndDisables :
    Config.tisa.handler 0 = some 0x80 ∧ ({ bootedAt 0x18 with enabled := true } : State).run = .running ∧
    ({ bootedAt 0x18 with enabled := true } : State).enabled = true ∧
    ({ bootedAt 0x18 with enabled := true } : State).tBit = false ∧
    (delaySlotConfig .clear).intInDelaySlot = .clear ∧ State.reset.run = .running ∧ State.reset.enabled = false := by decide
theorem witness_InterruptInDelaySlotFollowsItsParameter :
    Config.tisa.handler 0 = some 0x80 ∧ inDelaySlot.run = .running ∧ inDelaySlot.enabled = true ∧ inDelaySlot.tBit = true ∧
    (delaySlotConfig .refuse).intInDelaySlot = .refuse ∧ (delaySlotConfig .clear).intInDelaySlot = .clear := by decide
/-- Under `Keep`, with NOP at the handler's entry. -/
theorem witness_InterruptInDelaySlotFollowsItsParameter_keep :
    (delaySlotConfig .keep).intInDelaySlot = .keep ∧
    ∃ t u, fireInterrupt (delaySlotConfig .keep) 0 { inDelaySlot with mem := [(0x83, 0x0D)] } = .next (true, t) ∧
      executeSingle (delaySlotConfig .keep) tisaExec t = .next u ∧ u.run = .running :=
  ⟨rfl, { inDelaySlot with
      mem := [(0x83, 0x0D)], intret := 0x14, enabled := false, rip := 0x80, nextRip := 0x80 },
    (cycle (delaySlotConfig .keep) { inDelaySlot with
      mem := [(0x83, 0x0D)], intret := 0x14, enabled := false, rip := 0x80, nextRip := 0x80 }).get (by decide),
    rfl, next_of_isSome _ (by decide), by decide⟩
theorem witness_InterruptOnlyWhenRunning :
    fireInterrupt Config.tisa 0 State.reset = .next (false, State.reset) := rfl
theorem witness_HostCallsAreSteps :
    State.reset.host = [] ∧ ({ State.reset with host := [.executeSingle] } : State).host = .executeSingle :: [] ∧
    ({ State.reset with host := [.boot 7] } : State).host = .boot 7 :: [] ∧
    ({ State.reset with host := [.fireInterrupt 0] } : State).host = .fireInterrupt 0 :: [] ∧
    fireInterrupt Config.tisa 0 State.reset = .next (false, State.reset) := ⟨rfl, rfl, rfl, rfl, rfl⟩
theorem witness_StepRunsTheDecodedInstruction :
    jumpAndNop.run = .running ∧ jumpAndNop.rip.toNat + 3 < Config.tisa.memSize ∧
    decode Config.tisa.fetchOrder [jumpAndNop.byteAt Config.tisa jumpAndNop.rip.toNat,
      jumpAndNop.byteAt Config.tisa (jumpAndNop.rip.toNat + 1), jumpAndNop.byteAt Config.tisa (jumpAndNop.rip.toNat + 2),
      jumpAndNop.byteAt Config.tisa (jumpAndNop.rip.toNat + 3)] = .ok (.jr 0, []) ∧ jumpAndNop.host = [] ∧
    ({ jumpAndNop with host := [.executeSingle, .boot 7] } : State).host = .executeSingle :: [.boot 7] := by decide
theorem witness_PlacedWordIsTheNextInstruction : (bootedAt 0xFC).rip.toNat + 3 < Config.tisa.memSize := by decide
theorem witness_StepKeepsTheInvariant :
    (bootedAt 0x10).Inv Config.tisa ∧ ∃ t, step ((bootedAt 0x10)) = .next t :=
  ⟨⟨by decide, rfl, rfl, (fun h => nomatch h), fun _ _ => ⟨rfl, rfl, rfl⟩⟩, _, next_of_isSome _ (by decide)⟩
theorem witness_EveryCollaboratorKeepsTheInvariant :
    (bootedAt 0x10).Inv Config.tisa ∧
    ∃ t, coreStep Config.tisa (fun _ => .done) ((bootedAt 0x10)) = .next t :=
  ⟨witness_StepKeepsTheInvariant.1, _, next_of_isSome _ (by decide)⟩
theorem witness_DispatchTakesUndefinedOpcode : (Instr.execDispatch 0x00000000).wf = true := by decide
theorem witness_ShbShiftsInTheByte : (withReg 1 0xAB12).reg 1 = 0xAB12 := by decide
theorem witness_AddWraps : ((withReg 1 0xFFFF).setReg 2 1).reg 1 = 0xFFFF ∧ ((withReg 1 0xFFFF).setReg 2 1).reg 2 = 1 := by
  decide
theorem witness_SubWraps : (withReg 4 1).reg 3 = 0 ∧ (withReg 4 1).reg 4 = 1 := by decide
theorem witness_AddiAddsSignExtendedImmediate : (withReg 2 3).reg 2 = 3 ∧ (withReg 2 0xFFFF).reg 2 = 0xFFFF := by decide
theorem witness_LbLoadsByteOrFaults :
    ((withReg 2 0xFF).reg 2).toNat < 0x100 ∧ 0x100 ≤ ((withReg 2 0x100).reg 2).toNat ∧
    ((withReg 2 0xFF).reg 2).toNat < (denying 0xFF .read).memSize ∧
    (denying 0xFF .read).permits ((withReg 2 0xFF).reg 2).toNat .read = false ∧
    ({ withReg 2 0x40 with mem := [(0x40, 0x9C)] } : State).byteAt Config.tisa 0x40 = 0x9C ∧
    ({ withReg 2 0x40 with mem := [(0x40, 0x9C)] } : State).reg 2 = 0x40 := by decide
theorem witness_SbStoresLowByteOrFaults :
    ((withReg 2 0xFF).reg 2).toNat < 0x100 ∧ 0x100 ≤ ((withReg 2 0x100).reg 2).toNat ∧
    ((withReg 2 0xFF).reg 2).toNat < (denying 0xFF .write).memSize ∧
    (denying 0xFF .write).permits ((withReg 2 0xFF).reg 2).toNat .write = false ∧
    ((withReg 1 0x1234).setReg 2 0x50).reg 1 = 0x1234 ∧ ((withReg 1 0x1234).setReg 2 0x50).reg 2 = 0x50 := by decide
theorem witness_JrSchedulesRegister :
    ({ withReg 5 0x40 with rip := 0x10 } : State).reg 5 = 0x40 ∧ ({ withReg 5 0x40 with rip := 0x10 } : State).rip = 0x10 ∧
    ({ withReg 5 0x40 with rip := 0x10 } : State).tBit = false := by decide
theorem witness_BzSchedulesOnlyOnZero :
    ({ withReg 5 0x30 with rip := 8 } : State).reg 1 = 0 ∧ ({ withReg 5 0x30 with rip := 8 } : State).reg 5 = 0x30 ∧
    ({ withReg 5 0x30 with rip := 8 } : State).rip = 8 ∧ ({ withReg 5 0x30 with rip := 8 } : State).tBit = false ∧
    (withReg 1 5).reg 1 ≠ 0 := by decide
theorem witness_JalrLinksPastTheDelaySlot :
    ({ withReg 5 0x60 with rip := 0x10 } : State).reg 5 = 0x60 ∧ ({ withReg 5 0x60 with rip := 0x10 } : State).rip = 0x10 ∧
    (bootedAt 0xFFFC).rip = 0xFFFC := by decide
theorem witness_EiAndDiSetTheEnable : State.reset.run = .running ∧ 3 < 4 := by decide
theorem witness_RdiReadsIntret : ({ State.reset with intret := 0x18 } : State).intret = 0x18 := by decide
theorem witness_RetiReturnsAfterOneDelaySlot : State.reset.run = .running ∧ 3 < 4 := by decide
theorem witness_InstructionFrame_registers :
    (Instr.li 1 0x2A).wf = true ∧ (∃ t, exec (.li 1 0x2A) State.reset = .next t) ∧ (2 : RegisterId) ≠ 1 :=
  ⟨by decide, ⟨_, rfl⟩, by decide⟩
theorem witness_InstructionFrame_memory :
    (Instr.sb 1 2).wf = true ∧ (∃ t, exec (.sb 1 2) (withReg 2 0xFF) = .next t) ∧
    0xFE ≠ ((withReg 2 0xFF).reg 2).toNat := ⟨by decide, ⟨_, rfl⟩, by decide⟩
open Assembler in
theorem witness_LinkOrderIsIrrelevant :
    [Usage.mk ⟨"a", 1, 0⟩ "x" 0 0 false, ⟨⟨"a", 2, 4⟩, "y", 0, 4, false⟩].Perm
      [⟨⟨"a", 2, 4⟩, "y", 0, 4, false⟩, ⟨⟨"a", 1, 0⟩, "x", 0, 0, false⟩] ∧
    disjointUsages [⟨⟨"a", 1, 0⟩, "x", 0, 0, false⟩, ⟨⟨"a", 2, 4⟩, "y", 0, 4, false⟩] = true :=
  ⟨List.Perm.swap _ _ _, by decide⟩
open Assembler in
theorem witness_AssemblySucceedsIffEverythingResolves :
    (∃ r st, assemble 16 "a" [(1, .token .finish)] = .ok r ∧ emit 16 (AsmState.start "a") [(1, .token .finish)] = .ok st) ∧
    ∀ r, assemble 16 "a" [(1, .unrecognized)] ≠ .ok r :=
  ⟨⟨_, _, rfl, rfl⟩, fun _ h => by cases h⟩

end Sys2Proof.Tests
end

section
/-! PROOFS. `exec` as one cycle of the fixed machine, and what that cycle does to `run` (00_scope.md R10, 60_exceptions.md
R273). -/

namespace Sys2Proof.Machine
open Sys2Proof.Smol2

/-- The body each instruction's meaning runs: its row's body (R222), and for EXEC-DISPATCH what `EXEC` gives the whole word
(R102). -/
def bodyOf : Instr → Body tisaWordBits
  | .execDispatch w => tisaExec w
  | .li A I => bodyLi A I
  | .shb A I => bodyShb A I
  | .add A B => bodyAdd A B
  | .sub A B => bodySub A B
  | .lb A B => bodyLb A B
  | .sb A B => bodySb A B
  | .jr A => bodyJr A
  | .bz A B => bodyBz A B
  | .ei => bodyEi
  | .di => bodyDi
  | .rdi A => bodyRdi A
  | .reti => bodyReti
  | .nop => bodyNop
  | .jalr A B => bodyJalr A B
  | .addi A I => bodyAddi A I
  | .halt => bodyHalt

/-- No arm of the dispatch refuses or faults the model: each is a cycle of its instruction's own body (R148). -/
theorem exec_eq_runCycle (i : Instr) (s : State) :
    exec i s = .next (runCycle Config.tisa (encodeWord i) (bodyOf i) s) := by
  cases i <;> rfl

end Sys2Proof.Machine

namespace Sys2Proof.Smol2

/-- A cycle after its fetch, whatever its body, leaves `run` as it was, halts (R154), or takes a fault (R149). -/
theorem runCycle_run {wb : Nat} (c : Config wb) (w : InsnWord) (b : Body wb) (s : State wb) :
    (runCycle c w b s).run = s.run ∨ (runCycle c w b s).run = .halted ∨ ∃ r, (runCycle c w b s).run = .faulted r := by
  rcases runCycle_cases c w b s with ⟨t, sched, halting, hcycle, -, hrun, -⟩ | ⟨r, -, hfault, -⟩
  · rw [hcycle, completeCycle_run]
    cases halting with
    | false => exact .inl hrun
    | true => exact .inr (.inl rfl)
  · exact .inr (.inr ⟨r, hfault⟩)

end Sys2Proof.Smol2

namespace Sys2Proof.Machine

/-- Settles O37: every arm of `exec` is a cycle, and a cycle's end is one of three. -/
theorem everyInstructionHasANextState : Obligations.EveryInstructionHasANextState := by
  intro i s
  exact ⟨_, exec_eq_runCycle i s, Smol2.runCycle_run Config.tisa (encodeWord i) (bodyOf i) s⟩

end Sys2Proof.Machine
end

section
/-! PROOFS. Registers, and the frame of every instruction (10_state.md R22, R26, R31, R32, R35; 42_test_isa.md R221). -/

namespace Sys2Proof

/-- A word that no row of the table matches is in no TISA row of the decoder (R102, R222): the row the decoder would take
covers the word. -/
theorem decodeWord_of_not_tisaDefines {w : InsnWord} (h : tisaDefines w = false) : decodeWord w = .execDispatch w := by
  simp only [tisaDefines, tisaRows, List.any_cons, List.any_nil, Bool.or_false, Bool.or_eq_false_iff, covers_LI, covers_SHB,
    covers_ADD, covers_SUB, covers_LB, covers_SB, covers_JR, covers_BZ, covers_EI, covers_DI, covers_RDI, covers_RETI,
    covers_NOP, covers_JALR, covers_ADDI, covers_HALT, decide_eq_false_iff_not, not_and] at h
  unfold decodeWord
  split
  case h_17 => rfl
  all_goals
    rename_i hop
    simp only [hop, Nat.reduceEqDiff, false_implies, true_implies, and_true] at h
    exact if_neg (by simpa using h)

end Sys2Proof

namespace Sys2Proof.Smol2
open Sys2Proof.Machine

/-- What `t` has kept of `s`: a register, a byte of memory, `enabled`, `next_rip` and `run` under the condition given for
each; `intret`, the timestamp, the recorded word and the host's side without one. -/
structure StateFrame {wb : Nat} (c : Config wb) (s t : State wb) (regs : RegisterId → Prop) (bytes : Nat → Prop)
    (enabled nextRip run : Prop) : Prop where
  reg : ∀ j, regs j → t.reg j = s.reg j
  byteAt : ∀ a, bytes a → t.byteAt c a = s.byteAt c a
  enabled : enabled → t.enabled = s.enabled
  nextRip : nextRip → t.nextRip = s.nextRip
  run : run → t.run = s.run
  intret : t.intret = s.intret
  startTimestamp : t.startTimestamp = s.startTimestamp
  currentInstruction : t.currentInstruction = s.currentInstruction
  host : t.host = s.host
  replies : t.replies = s.replies

namespace StateFrame

variable {wb : Nat} {c : Config wb} {s t : State wb} {regs : RegisterId → Prop} {bytes : Nat → Prop}
  {enabled nextRip run : Prop}

theorem refl : StateFrame c s s regs bytes enabled nextRip run :=
  ⟨fun _ _ => rfl, fun _ _ => rfl, fun _ => rfl, fun _ => rfl, fun _ => rfl, rfl, rfl, rfl, rfl, rfl⟩

/-- A register write keeps everything but its register (R22). -/
theorem setReg {i : RegisterId} {v : Word wb} (hreg : ∀ j, regs j → j ≠ i) :
    StateFrame c s (s.setReg i v) regs bytes enabled nextRip run :=
  { (refl : StateFrame c s s regs bytes enabled nextRip run) with reg := fun j hj => State.reg_setReg_other s v (hreg j hj) }

/-- A write of the enable keeps everything but the enable (R31, R189). -/
theorem setIntEnabled {b : Bool} (hen : ¬enabled) :
    StateFrame c s (s.setIntEnabled b) regs bytes enabled nextRip run :=
  { (refl : StateFrame c s s regs bytes enabled nextRip run) with enabled := fun h => absurd h hen }

/-- A byte written to the store keeps everything but that byte (R64). -/
theorem setByte {a : Nat} {v : Byte} (hbyte : ∀ x, bytes x → x ≠ a) :
    StateFrame c s { s with mem := Memory.set c.initMem s.mem a v } regs bytes enabled nextRip run :=
  { (refl : StateFrame c s s regs bytes enabled nextRip run) with
    byteAt := fun x hx => Memory.get_set_other c.initMem s.mem v (hbyte x hx) }

/-- A fault keeps everything but `run` and the trace (R272). -/
theorem fireException {r : FaultReason wb} (hrun : ¬run) :
    StateFrame c s (fireException r s) regs bytes enabled nextRip run :=
  { (refl : StateFrame c s s regs bytes enabled nextRip run) with run := fun h => absurd h hrun }

/-- The end of a cycle keeps what the body has kept: `next_rip` if nothing was scheduled (R151), `run` if the body has not
halted (R154). -/
theorem completeCycle {t0 halting : Bool} {n0 a : Word wb} {sched : Option (Word wb)}
    (h : StateFrame c s t regs bytes enabled nextRip run) (hsched : nextRip → sched = none)
    (hhalt : run → halting = false) :
    StateFrame c s (completeCycle t0 n0 a sched halting t) regs bytes enabled nextRip run where
  reg j hj := (State.reg_congr (completeCycle_regs ..) j).trans (h.reg j hj)
  byteAt x hx := (State.byteAt_congr c (completeCycle_mem ..) x).trans (h.byteAt x hx)
  enabled hc := (completeCycle_enabled ..).trans (h.enabled hc)
  nextRip hc := by rw [completeCycle_nextRip, hsched hc]; exact h.nextRip hc
  run hc := by rw [completeCycle_run, hhalt hc]; exact h.run hc
  intret := (completeCycle_intret ..).trans h.intret
  startTimestamp := (completeCycle_startTimestamp ..).trans h.startTimestamp
  currentInstruction := (completeCycle_currentInstruction ..).trans h.currentInstruction
  host := (completeCycle_host ..).trans h.host
  replies := (completeCycle_replies ..).trans h.replies

/-- The frame as the conjunction that an obligation states. -/
theorem parts (h : StateFrame c s t regs bytes enabled nextRip run) :
    (∀ j, regs j → t.reg j = s.reg j) ∧ (∀ a, bytes a → t.byteAt c a = s.byteAt c a) ∧
    (enabled → t.enabled = s.enabled) ∧ (nextRip → t.nextRip = s.nextRip) ∧ (run → t.run = s.run) ∧
    t.intret = s.intret ∧ t.startTimestamp = s.startTimestamp ∧ t.currentInstruction = s.currentInstruction ∧
    t.host = s.host ∧ t.replies = s.replies :=
  ⟨h.reg, h.byteAt, h.enabled, h.nextRip, h.run, h.intret, h.startTimestamp, h.currentInstruction, h.host, h.replies⟩

end StateFrame

end Sys2Proof.Smol2

namespace Sys2Proof.Machine
open Sys2Proof.Smol2

/-- Settles O5: the two laws of a register write. -/
theorem registerReadAfterWrite : Obligations.RegisterReadAfterWrite := by
  intro wb s i v
  exact ⟨s.reg_setReg_same i v, fun j hj => s.reg_setReg_other v hj⟩

/-- For a word outside TISA, EXEC-DISPATCH takes the undefined-opcode fault (R103, R192). -/
theorem runCycle_tisaExec_undefined {w : InsnWord} (h : tisaDefines w = false) (s : State) :
    runCycle Config.tisa w (tisaExec w) s = fireException (.undefinedOpcode w s.rip) s := by
  simp only [tisaExec, decodeWord_of_not_tisaDefines h, runCycle, runBody]

/-- A conditional transfer is scheduled exactly if `x[A]` is zero (R230). -/
theorem runCycle_bodyBz (w : InsnWord) (A B : RegisterId) (s : State) :
    runCycle Config.tisa w (bodyBz A B) s =
      completeCycle s.tBit s.nextRip s.rip (if s.reg A = 0 then some (s.reg B) else none) false s := by
  by_cases hz : s.reg A = 0 <;> simp only [runCycle, bodyBz, runBody, hz, if_true, if_false]

/-- Everything a load can do (R227): it writes the byte at `x[B]`, zero-extended, or takes the access fault. -/
theorem runCycle_bodyLb_cases (w : InsnWord) (A B : RegisterId) (s : State) :
    (Mmu.check Config.tisa (s.reg B).toNat .read = none ∧
      runCycle Config.tisa w (bodyLb A B) s = completeCycle s.tBit s.nextRip s.rip none false
        (s.setReg A (zext16 (s.byteAt Config.tisa (s.reg B).toNat)))) ∨
    ∃ kind, Mmu.check Config.tisa (s.reg B).toNat .read = some kind ∧
      runCycle Config.tisa w (bodyLb A B) s = fireException (.accessFault kind (s.reg B).toNat .read) s := by
  rcases memRead_cases Config.tisa s (s.reg B).toNat with ⟨hcheck, hread⟩ | ⟨kind, hcheck, hread⟩
  · exact .inl ⟨hcheck, by simp only [runCycle, bodyLb, runBody, hread]⟩
  · exact .inr ⟨kind, hcheck, by simp only [runCycle, bodyLb, runBody, hread]⟩

/-- Everything a store can do (R228): it writes the low byte of `x[A]` at `x[B]`, or takes the access fault. -/
theorem runCycle_bodySb_cases (w : InsnWord) (A B : RegisterId) (s : State) :
    (Mmu.check Config.tisa (s.reg B).toNat .write = none ∧
      runCycle Config.tisa w (bodySb A B) s = completeCycle s.tBit s.nextRip s.rip none false
        { s with mem := Memory.set Config.tisa.initMem s.mem (s.reg B).toNat (lowByte (s.reg A)) }) ∨
    ∃ kind, Mmu.check Config.tisa (s.reg B).toNat .write = some kind ∧
      runCycle Config.tisa w (bodySb A B) s = fireException (.accessFault kind (s.reg B).toNat .write) s := by
  rcases memWrite_cases Config.tisa s (s.reg B).toNat (lowByte (s.reg A)) with ⟨hcheck, hwrite⟩ | ⟨kind, hcheck, hwrite⟩
  · exact .inl ⟨hcheck, by simp only [runCycle, bodySb, runBody, hwrite]⟩
  · exact .inr ⟨kind, hcheck, by simp only [runCycle, bodySb, runBody, hwrite]⟩

/-- Settles O57: a cycle keeps what its body keeps, and each body makes at most one write: to a register, the enable
or a byte. -/
theorem instructionFrame : Obligations.InstructionFrame := by
  intro i s t hwf h
  rw [exec_eq_runCycle] at h
  injection h with h
  subst h
  refine StateFrame.parts ?_
  cases i with
  | li _ _ | shb _ _ | add _ _ | sub _ _ | addi _ _ | rdi _ =>
    exact (StateFrame.setReg fun _ hj => hj).completeCycle (fun _ => rfl) (fun _ => rfl)
  | jalr _ _ => exact (StateFrame.setReg fun _ hj => hj).completeCycle False.elim (fun _ => rfl)
  | ei | di => exact (StateFrame.setIntEnabled id).completeCycle (fun _ => rfl) (fun _ => rfl)
  | reti => exact (StateFrame.setIntEnabled id).completeCycle False.elim (fun _ => rfl)
  | jr _ => exact StateFrame.refl.completeCycle False.elim (fun _ => rfl)
  | bz A B =>
    rw [bodyOf, runCycle_bodyBz]
    exact StateFrame.refl.completeCycle False.elim (fun _ => rfl)
  | nop => exact StateFrame.refl.completeCycle (fun _ => rfl) (fun _ => rfl)
  | halt => exact StateFrame.refl.completeCycle (halting := true) (fun _ => rfl) False.elim
  | lb A B =>
    rcases runCycle_bodyLb_cases (encodeWord (.lb A B)) A B s with ⟨-, hcycle⟩ | ⟨kind, -, hcycle⟩ <;> rw [bodyOf, hcycle]
    · exact (StateFrame.setReg fun _ hj => hj).completeCycle (fun _ => rfl) (fun _ => rfl)
    · exact .fireException id
  | sb A B =>
    rcases runCycle_bodySb_cases (encodeWord (.sb A B)) A B s with ⟨-, hcycle⟩ | ⟨kind, -, hcycle⟩ <;> rw [bodyOf, hcycle]
    · exact (StateFrame.setByte fun _ hx => hx).completeCycle (fun _ => rfl) (fun _ => rfl)
    · exact .fireException id
  | execDispatch w =>
    have hundef : tisaDefines w = false := by simpa [Instr.wf] using hwf
    rw [bodyOf, encodeWord, runCycle_tisaExec_undefined hundef]
    exact .fireException id

end Sys2Proof.Machine
end

section
/-! PROOFS. The memory unit: one byte access, a sequence of byte accesses, the canonical store, and the loading of an image
(20_memory.md R60 to R67, R72, R73; 10_state.md R40). -/

namespace Sys2Proof.Smol2
open Sys2Proof.Machine

variable {wb : Nat} (c : Config wb)

/-- The bounds check comes first (R63, R64, D11). -/
theorem Mmu.check_of_memSize_le {a : Nat} (h : c.memSize ≤ a) (k : Access) : Mmu.check c a k = some .outOfBounds :=
  if_pos h

/-- `PERMITS` is asked inside the store (R74). -/
theorem Mmu.check_of_denied {a : Nat} {k : Access} (ha : a < c.memSize) (hp : c.permits a k = false) :
    Mmu.check c a k = some .protection := by
  simp only [Mmu.check, if_neg (Nat.not_le.2 ha), hp, Bool.not_false, if_true]

/-- The base Mmu checks nothing after `PERMITS` (R62). -/
theorem Mmu.check_of_permitted {a : Nat} {k : Access} (hbase : c.BaseMmu) (ha : a < c.memSize)
    (hp : c.permits a k = true) : Mmu.check c a k = none :=
  (Mmu.check_none_iff c a k).2 ⟨ha, hp, hbase a k⟩

/-- A byte laid in the store reads back, and the others read as before. -/
theorem State.byteAt_set (s : State wb) (a x : Nat) (v : Byte) :
    State.byteAt c { s with mem := Memory.set c.initMem s.mem a v } x = if x = a then v else s.byteAt c x :=
  Memory.get_set c.initMem s.mem a x v

/-- Settles O6: one case per answer of the check. -/
theorem mmuReadChecksBoundsThenPermission : Obligations.MmuReadChecksBoundsThenPermission := by
  intro wb c s a hbase
  by_cases ha : a ≥ c.memSize
  · rw [if_pos ha]
    exact Mmu.read_of_check_some c (Mmu.check_of_memSize_le c ha .read)
  · have hin : a < c.memSize := Nat.lt_of_not_le ha
    rw [if_neg ha]
    cases hp : c.permits a .read with
    | false => exact Mmu.read_of_check_some c (Mmu.check_of_denied c hin hp)
    | true => exact Mmu.read_of_check_none c (Mmu.check_of_permitted c hbase hin hp)

/-- Settles O7: one case per answer of the check, and read after write in the store. -/
theorem mmuWriteChangesOneByteOrNothing : Obligations.MmuWriteChangesOneByteOrNothing := by
  intro wb c s a v hbase
  refine ⟨fun ha => ?_, fun ha hp => ?_, fun ha hp => ?_⟩
  · exact Mmu.write_of_check_some c (Mmu.check_of_memSize_le c ha .write)
  · exact Mmu.write_of_check_some c (Mmu.check_of_denied c ha hp)
  · exact ⟨_, Mmu.write_of_check_none c (Mmu.check_of_permitted c hbase ha hp), fun x => s.byteAt_set c a x v, rfl⟩

/-! ## Sequences of byte accesses (R67) -/

/-- Bytes that pass the check are laid one after another, and the write goes on with the bytes after them. -/
theorem memWriteN_append {bs : List Byte} {a : Nat} (cs : List Byte) (s : State wb)
    (h : ∀ k < bs.length, Mmu.check c (a + k) .write = none) :
    memWriteN c (bs ++ cs) a s =
      memWriteN c cs (a + bs.length) { s with mem := Memory.place c.initMem c.memSize s.mem a bs } := by
  induction bs generalizing a s with
  | nil => rfl
  | cons b bs ih =>
    have hfirst : Mmu.check c a .write = none := h 0 (Nat.succ_pos _)
    have hin : a < c.memSize := ((Mmu.check_none_iff c a .write).1 hfirst).1
    have hrest : ∀ k < bs.length, Mmu.check c (a + 1 + k) .write = none := fun k hk => by
      rw [Nat.add_right_comm]
      exact h (k + 1) (Nat.succ_lt_succ hk)
    simp only [List.cons_append, memWriteN, memWrite_of_check_none c hfirst, ih _ hrest, List.length_cons, Memory.place,
      if_pos hin, Nat.add_assoc, Nat.add_comm 1]

/-- A write whose every byte passes the check lays its bytes (R64). -/
theorem memWriteN_of_check_none {bs : List Byte} {a : Nat} (s : State wb)
    (h : ∀ k < bs.length, Mmu.check c (a + k) .write = none) :
    memWriteN c bs a s = (true, { s with mem := Memory.place c.initMem c.memSize s.mem a bs }) := by
  simpa only [List.append_nil, memWriteN] using memWriteN_append c [] s h

/-- A write takes the fault of its first failing byte, and the bytes before it stay written (R65). -/
theorem memWriteN_of_check_some {bs : List Byte} {a k : Nat} {kind : FaultKind} (s : State wb) (hk : k < bs.length)
    (hbefore : ∀ j < k, Mmu.check c (a + j) .write = none) (hat : Mmu.check c (a + k) .write = some kind) :
    memWriteN c bs a s = (false, fireException (.accessFault kind (a + k) .write)
      { s with mem := Memory.place c.initMem c.memSize s.mem a (bs.take k) }) := by
  have hlen : (bs.take k).length = k := List.length_take_of_le (Nat.le_of_lt hk)
  have hlaid := memWriteN_append c (bs.drop k) s (bs := bs.take k) (hlen.symm ▸ hbefore)
  rw [List.take_append_drop, hlen, List.drop_eq_getElem_cons hk] at hlaid
  rw [hlaid, memWriteN, memWrite_of_check_some c hat]

/-- What the store reads after bytes that pass the check are laid: the bytes, and elsewhere what stood there. -/
theorem State.byteAt_place {bs : List Byte} {a : Nat} (s : State wb)
    (h : ∀ k < bs.length, Mmu.check c (a + k) .write = none) (x : Nat) :
    State.byteAt c { s with mem := Memory.place c.initMem c.memSize s.mem a bs } x =
      if a ≤ x then (bs[x - a]?).getD (s.byteAt c x) else s.byteAt c x := by
  rcases Nat.eq_zero_or_pos bs.length with hzero | hpos
  · rw [List.length_eq_zero_iff.1 hzero]
    exact (ite_self (s.byteAt c x)).symm
  · have hlast := ((Mmu.check_none_iff c _ .write).1 (h (bs.length - 1) (Nat.sub_one_lt_of_lt hpos))).1
    exact Memory.get_place c.initMem c.memSize s.mem a bs x (by omega)

/-- A read whose every byte passes the check gives the Bytes and changes nothing (R63). -/
theorem memReadN_of_check_none {n a : Nat} (s : State wb) (h : ∀ k < n, Mmu.check c (a + k) .read = none) :
    memReadN c n a s = (some ((List.range n).map fun k => s.byteAt c (a + k)), s) := by
  rcases memReadN_cases c n a s with ⟨-, hread⟩ | ⟨k, kind, hk, -, hat, -⟩
  · exact hread
  · rw [h k hk] at hat
    cases hat

/-- A read takes the fault of its first failing byte and changes nothing more. -/
theorem memReadN_of_check_some {n a k : Nat} {kind : FaultKind} (s : State wb) (hk : k < n)
    (hbefore : ∀ j < k, Mmu.check c (a + j) .read = none) (hat : Mmu.check c (a + k) .read = some kind) :
    memReadN c n a s = (none, fireException (.accessFault kind (a + k) .read) s) := by
  rcases memReadN_cases c n a s with ⟨hall, -⟩ | ⟨k', kind', -, hbefore', hat', hread⟩
  · rw [hall k hk] at hat
    cases hat
  · rcases Nat.lt_trichotomy k' k with hlt | rfl | hgt
    · rw [hbefore k' hlt] at hat'
      cases hat'
    · rw [hat] at hat'
      cases hat'
      exact hread
    · rw [hbefore' k hgt] at hat
      cases hat

/-- Settles O8: the two ends of a sequence of reads and of a sequence of writes. -/
theorem multiByteAccessStopsAtFirstFault : Obligations.MultiByteAccessStopsAtFirstFault := by
  intro wb c s a
  refine ⟨fun n => ⟨fun hall => ?_, fun k hk kind hbefore hat => memReadN_of_check_some c s hk hbefore hat⟩,
    fun bs => ⟨fun hall => ?_, fun k hk kind hbefore hat => ?_⟩, fun x k hx => Mmu.check_of_memSize_le c hx k⟩
  · exact ⟨_, memReadN_of_check_none c s hall, by simp, fun k hk => by simp [hk]⟩
  · exact ⟨_, memWriteN_of_check_none c s hall, rfl, s.byteAt_place c hall⟩
  · refine ⟨_, memWriteN_of_check_some c s hk hbefore hat, rfl, fun x => ?_⟩
    have hlen : (bs.take k).length = k := List.length_take_of_le (Nat.le_of_lt hk)
    refine (s.byteAt_place c (bs := bs.take k) (hlen.symm ▸ hbefore) x).trans ?_
    by_cases ha : a ≤ x
    · by_cases hx : x < a + k
      · rw [if_pos ha, if_pos ⟨ha, hx⟩, List.getElem?_take_of_lt (by omega)]
      · rw [if_pos ha, if_neg (fun h => hx h.2), List.getElem?_take_eq_none (by omega), Option.getD_none]
    · rw [if_neg ha, if_neg (fun h => ha h.1)]

end Sys2Proof.Smol2

namespace Sys2Proof.Machine

/-! ## The canonical store (log 17) -/

/-- A listed cell is what its address reads as, the addresses being distinct. -/
theorem Memory.get_of_mem (fill : Nat → Byte) {m : List Host.Cell} (hm : m.Pairwise fun x y => x.1 < y.1)
    {e : Host.Cell} (he : e ∈ m) : Memory.get fill m e.1 = e.2 := by
  induction m with
  | nil => cases he
  | cons f m ih =>
    obtain ⟨hlt, htail⟩ := List.pairwise_cons.1 hm
    rw [Memory.get]
    rcases List.mem_cons.1 he with rfl | hmem
    · exact if_pos rfl
    · rw [if_neg (Nat.ne_of_lt (hlt e hmem))]
      exact ih htail hmem

/-- An address that does not read as the filler is listed. -/
theorem Memory.mem_of_get_ne_fill (fill : Nat → Byte) {m : List Host.Cell} {a : Nat}
    (h : Memory.get fill m a ≠ fill a) : (a, Memory.get fill m a) ∈ m := by
  induction m with
  | nil => exact absurd rfl h
  | cons e m ih =>
    by_cases hea : e.1 = a
    · subst hea
      simp [Memory.get]
    · rw [Memory.get, if_neg hea] at h ⊢
      exact List.mem_cons_of_mem e (ih h)

/-- The cells of a canonical store are the addresses that do not read as the filler, with what they read as. -/
theorem Memory.wf.mem_iff {fill : Nat → Byte} {size : Nat} {m : List Host.Cell} (hm : Memory.wf fill size m)
    (e : Host.Cell) : e ∈ m ↔ Memory.get fill m e.1 = e.2 ∧ e.2 ≠ fill e.1 := by
  constructor
  · intro he
    exact ⟨Memory.get_of_mem fill hm.1 he, (hm.2 e he).2⟩
  · rintro ⟨hget, hne⟩
    have hmem := Memory.mem_of_get_ne_fill fill (m := m) (a := e.1) (hget.symm ▸ hne)
    rwa [hget] at hmem

/-- Rising addresses are distinct, so no cell is listed twice. -/
theorem Memory.wf.nodup {fill : Nat → Byte} {size : Nat} {m : List Host.Cell} (hm : Memory.wf fill size m) : m.Nodup :=
  hm.1.imp fun hlt heq => Nat.ne_of_lt hlt (congrArg Prod.fst heq)

/-- Settles O9: stores that read the same list the same cells, and rising lists of the same cells are equal. -/
theorem canonicalMemoryIsUnique : Obligations.CanonicalMemoryIsUnique := by
  intro fill size m n hm hn hget
  have hcells : ∀ e, e ∈ m ↔ e ∈ n := fun e => by
    rw [hm.mem_iff, hn.mem_iff, hget]
  have hperm : m.Perm n := (List.perm_ext_iff_of_nodup hm.nodup hn.nodup).2 hcells
  exact hperm.eq_of_pairwise (fun x y _ _ hxy hyx => absurd hxy (Nat.lt_asymm hyx)) hm.1 hn.1

end Sys2Proof.Machine

namespace Sys2Proof.Smol2
open Sys2Proof.Machine

/-! ## Construction (R72, R73, R141) -/

/-- Every register of a core without an image is 0 (R321). -/
theorem State.reg_unloaded (wb : Nat) (i : RegisterId) : (State.unloaded wb).reg i = 0 :=
  Vector.getElem_replicate i.isLt

/-- Settles O10: an image is bytes laid at `LOAD_BASE` in the store with nothing listed. -/
theorem constructLoadsTheImage : Obligations.ConstructLoadsTheImage := by
  intro wb c image
  constructor
  · intro hfits
    have hbound : loadBase + image.length ≤ c.memSize := by rwa [loadBase, Nat.zero_add]
    refine ⟨_, if_pos hbound, fun k => ?_, Memory.wf_place _ _ _ _ (Memory.wf_nil _ _), rfl,
      State.reg_unloaded wb, rfl⟩
    exact (Memory.get_place c.initMem c.memSize [] loadBase image k hbound).trans (if_pos (Nat.zero_le k))
  · intro hlong
    exact if_neg (by rw [loadBase, Nat.zero_add]; exact Nat.not_le.2 hlong)

end Sys2Proof.Smol2
end

section
/-! PROOFS. The encoder and the decoder are inverse to each other, and EXEC-DISPATCH runs the instruction its word stands for
(30_encoding.md R100, R102, R103; 42_test_isa.md R221, R222; 40_core_cycle.md R148). -/

namespace Sys2Proof

/-- The words of format T with given fields: those whose fields they are, `Z` being zero (R221). -/
theorem formatT_eq_iff (op : BitVec 8) (A B : BitVec 4) (I : Byte) (w : InsnWord) :
    formatT op A B I = w ↔ fieldOp w = op ∧ fieldA w = A ∧ fieldB w = B ∧ fieldZ w = 0 ∧ fieldI w = I := by
  constructor
  · rintro rfl
    exact ⟨fieldOp_formatT .., fieldA_formatT .., fieldB_formatT .., fieldZ_formatT .., fieldI_formatT ..⟩
  · rintro ⟨rfl, rfl, rfl, hz, rfl⟩
    exact formatT_fields w hz

/-- EXEC-DISPATCH is well-formed with the words outside TISA (R102, R222). -/
theorem wf_execDispatch_iff (w : InsnWord) : (Instr.execDispatch w).wf = true ↔ tisaDefines w = false := by
  rw [Instr.wf, Bool.not_eq_true']

/-- The decoder reads a TISA instruction from its format T word, whose unused fields are zero, and a word outside TISA as
EXEC-DISPATCH (R102, R222). -/
theorem decodeWord_encodeWord {i : Instr} (hwf : i.wf = true) : decodeWord (encodeWord i) = i := by
  cases i with
  | execDispatch w => exact decodeWord_of_not_tisaDefines ((wf_execDispatch_iff w).1 hwf)
  | _ => simp [encodeWord, decodeWord, rowOr]

/-- A word that a row of the table matches decodes to that row's instruction, whose format T word it is (R222). -/
theorem encodeWord_decodeWord_of_tisaDefines {w : InsnWord} (h : tisaDefines w = true) :
    encodeWord (decodeWord w) = w ∧ (decodeWord w).wf = true := by
  simp only [tisaDefines, tisaRows, List.any_cons, List.any_nil, Bool.or_false, Bool.or_eq_true, covers_LI, covers_SHB,
    covers_ADD, covers_SUB, covers_LB, covers_SB, covers_JR, covers_BZ, covers_EI, covers_DI, covers_RDI, covers_RETI,
    covers_NOP, covers_JALR, covers_ADDI, covers_HALT, decide_eq_true_eq] at h
  rcases h with h | h | h | h | h | h | h | h | h | h | h | h | h | h | h | h <;>
    simp [decodeWord, h, rowOr, encodeWord, formatT_eq_iff, fieldOp_eq_iff, Instr.wf]

/-- Settles O1: the word decodes to the instruction, and so do the word's bytes in either order. -/
theorem decodeOfEncodeIsIdentity : Obligations.DecodeOfEncodeIsIdentity := by
  intro i hwf
  refine ⟨decodeWord_encodeWord hwf, fun o rest => ?_⟩
  rw [encode, decode_wordBytes, decodeWord_encodeWord hwf]

/-- Settles O2: a row of the table matches the word, or EXEC-DISPATCH carries it whole. -/
theorem encodeOfDecodeIsIdentity : Obligations.EncodeOfDecodeIsIdentity := by
  intro w
  cases hdef : tisaDefines w with
  | true => exact encodeWord_decodeWord_of_tisaDefines hdef
  | false =>
    rw [decodeWord_of_not_tisaDefines hdef]
    exact ⟨rfl, (wf_execDispatch_iff w).2 hdef⟩

end Sys2Proof

namespace Sys2Proof.Machine
open Sys2Proof.Smol2

/-- The body `EXEC` gives a word is that of the instruction the word decodes to (R180, R222). -/
theorem bodyOf_decodeWord (w : InsnWord) : bodyOf (decodeWord w) = tisaExec w := by
  unfold tisaExec
  cases hdec : decodeWord w with
  | execDispatch v =>
    have hword : encodeWord (.execDispatch v) = w := by rw [← hdec, (encodeOfDecodeIsIdentity w).1]
    rw [encodeWord] at hword
    rw [bodyOf, tisaExec, hword, hdec]
  | _ => rfl

/-- Settles O41: the body of EXEC-DISPATCH is the one `EXEC` gives its word, which is the word its instruction encodes to. -/
theorem dispatchTakesUndefinedOpcode : Obligations.DispatchTakesUndefinedOpcode := by
  constructor
  · intro w s hwf
    rw [exec_eq_runCycle, encodeWord, bodyOf, runCycle_tisaExec_undefined ((wf_execDispatch_iff w).1 hwf)]
    rfl
  · intro w s
    have hword : encodeWord (decodeWord w) = w := (encodeOfDecodeIsIdentity w).1
    rw [exec_eq_runCycle, exec_eq_runCycle, encodeWord, bodyOf, hword, bodyOf_decodeWord]

end Sys2Proof.Machine

namespace Sys2Proof.Smol2

/-- A fetch whose 4 byte checks pass gives the word the store holds at `rip` and records it (R144, R145). -/
theorem fetchInstruction_of_check_none {wb : Nat} (c : Config wb) {s : State wb}
    (h : ∀ k < insnBytes, Mmu.check c (s.rip.toNat + k) .read = none) :
    fetchInstruction c s = (some (wordAt c s s.rip.toNat),
      { s with currentInstruction := some (wordAt c s s.rip.toNat) }) := by
  rcases fetchInstruction_cases c s with ⟨-, hfetch⟩ | ⟨k, kind, hk, -, hat, -⟩
  · exact hfetch
  · rw [h k hk] at hat
    cases hat

/-- Settles O18: the fetched word is the argument of the collaborator. -/
theorem wholeWordGoesToTheCollaborator : Obligations.WholeWordGoesToTheCollaborator := by
  intro wb c E s hrun hcheck
  refine ⟨wordAt c s s.rip.toNat, rfl, ?_⟩
  simp only [executeSingle, cycleWith, hrun, fetchInstruction_of_check_none c hcheck]

end Sys2Proof.Smol2
end

section
/-! PROOFS. The assembler's link pass: the bytes it patches, the names it resolves, and when an assembly gives an image
(30_encoding.md R106, R114 to R118). -/

namespace Sys2Proof.Assembler

/-- Settles O58: the low 8 bits are the remainder modulo 256, and a shift is a quotient. -/
theorem selectByteTakesTheShiftedByte : Obligations.SelectByteTakesTheShiftedByte := by
  refine ⟨fun address bitOffset => ?_, rfl, rfl⟩
  calc (selectByte address bitOffset).toNat
      = (address >>> bitOffset &&& 2 ^ 8 - 1) % 2 ^ 8 := rfl
    _ = address / 2 ^ bitOffset % 256 := by
      rw [Nat.and_two_pow_sub_one_eq_mod, Nat.mod_mod, Nat.shiftRight_eq_div_pow]

/-! ## What a name resolves to -/

/-- The address a label's name resolves to, if it has a definition (R109, R114). -/
def addressOf (ds : List Definition) (name : String) : Option Nat :=
  (lookup ds name).map (·.context.instructionOffset)

theorem addressOf_isSome_iff (ds : List Definition) (name : String) :
    (addressOf ds name).isSome = true ↔ ∃ d ∈ ds, d.name = name := by
  simp [addressOf, lookup]

/-- Marking definitions as used does not change what a name resolves to (R114). -/
theorem addressOf_markUsed (ds : List Definition) (marked name : String) :
    addressOf (markUsed marked ds) name = addressOf ds name := by
  have hname (d : Definition) : (if d.name == marked then { d with used := true } else d).name = d.name := by
    split <;> rfl
  have hcontext (d : Definition) : (if d.name == marked then { d with used := true } else d).context = d.context := by
    split <;> rfl
  simp only [addressOf, lookup, markUsed, List.find?_map, Option.map_map, Function.comp_def, hname, hcontext]

/-! ## The link pass -/

/-- What the link pass does to the bytes at one usage: patch the byte of a defined name, else nothing (R114). -/
def patch (ds : List Definition) (out : List Byte) (u : Usage) : List Byte :=
  match addressOf ds u.name with
  | none => out
  | some address => out.set u.offset (selectByte address u.bitOffset)

theorem patch_of_undefined {ds : List Definition} {u : Usage} (h : lookup ds u.name = none) (out : List Byte) :
    patch ds out u = out := by
  simp only [patch, addressOf, h, Option.map_none]

theorem patch_of_defined {ds : List Definition} {u : Usage} {d : Definition} (h : lookup ds u.name = some d)
    (out : List Byte) :
    patch ds out u = out.set u.offset (selectByte d.context.instructionOffset u.bitOffset) := by
  simp only [patch, addressOf, h, Option.map_some]

/-- Marking definitions as used changes no patch (R114). -/
theorem patch_markUsed (ds : List Definition) (marked : String) : patch (markUsed marked ds) = patch ds := by
  funext out u
  simp only [patch, addressOf_markUsed]

/-- Patches at different offsets commute (R116). -/
theorem patch_comm (ds : List Definition) (out : List Byte) {u v : Usage} (h : u.offset ≠ v.offset) :
    patch ds (patch ds out u) v = patch ds (patch ds out v) u := by
  unfold patch
  cases addressOf ds u.name with
  | none => rfl
  | some a =>
    cases addressOf ds v.name with
    | none => rfl
    | some b => exact List.set_comm _ _ h

/-- The bytes of the link pass are the patches of its usages in order; the marks do not matter to them (R114). -/
theorem linkLabels_output (us : List Usage) (out : List Byte) (ds : List Definition) :
    (linkLabels us out ds).1 = us.foldl (patch ds) out := by
  induction us generalizing out ds with
  | nil => rfl
  | cons u us ih =>
    cases hlook : lookup ds u.name with
    | none => simp [linkLabels, hlook, ih, patch_of_undefined hlook]
    | some d => simp [linkLabels, hlook, ih, patch_markUsed, patch_of_defined hlook]

/-- The link pass reports no error exactly if every usage has a definition (R114). -/
theorem linkLabels_errors_eq_nil_iff (us : List Usage) (out : List Byte) (ds : List Definition) :
    (linkLabels us out ds).2.2.2 = [] ↔ ∀ u ∈ us, ∃ d ∈ ds, d.name = u.name := by
  simp only [← addressOf_isSome_iff]
  induction us generalizing out ds with
  | nil => simp [linkLabels]
  | cons u us ih =>
    cases hlook : lookup ds u.name with
    | none => simp [linkLabels, addressOf, hlook]
    | some d =>
      have hdefined : (addressOf ds u.name).isSome = true := by rw [addressOf, hlook]; rfl
      simp [linkLabels, hlook, ih, addressOf_markUsed, hdefined]

/-- Settles O59: distinct usages patch different bytes, so any order of the patches gives the same bytes. -/
theorem linkOrderIsIrrelevant : Obligations.LinkOrderIsIrrelevant := by
  intro us vs out ds hperm hdisjoint
  have hnodup : (us.map (·.offset)).Nodup := of_decide_eq_true hdisjoint
  rw [linkLabels_output, linkLabels_output]
  refine hperm.foldl_eq' (fun u hu v hv out' => ?_) out
  by_cases hoffset : u.offset = v.offset
  · rw [List.inj_on_of_nodup_map hnodup hu hv hoffset]
  · exact patch_comm ds out' hoffset

/-! ## Assembling -/

/-- The state an assembly leaves after its link pass (R114). -/
def linked (st : AsmState) : AsmState :=
  let (out, ds, us, _) := linkLabels st.usages st.output st.definitions
  { st with output := out, definitions := ds, usages := us }

/-- An assembly gives an image exactly if the emit pass raises no error, no usages overlap and the link pass reports no
error; the image is the link pass's output (R113, R116, R118). -/
theorem assemble_eq_ok_iff (wordBits : Nat) (path : String) (toks : List (Nat × Lexeme)) (r : List Byte × AsmState) :
    assemble wordBits path toks = .ok r ↔ ∃ st, emit wordBits (AsmState.start path) toks = .ok st ∧
      disjointUsages st.usages = true ∧ (linkLabels st.usages st.output st.definitions).2.2.2 = [] ∧
      ((linkLabels st.usages st.output st.definitions).1, linked st) = r := by
  unfold assemble
  cases emit wordBits (AsmState.start path) toks with
  | error e => simp
  | ok st =>
    cases hdisjoint : disjointUsages st.usages with
    | false => simp [hdisjoint]
    | true =>
      rcases hlink : linkLabels st.usages st.output st.definitions with ⟨out, ds, us, es⟩
      cases es <;> simp [hdisjoint, hlink, linked]

/-- A failed assembly has no launch (R106). -/
theorem launch_of_not_ok {wb : Nat} (c : Config wb) {path : String} {toks : List (Nat × Lexeme)}
    (h : ∀ r, assemble wb path toks ≠ .ok r) : launch c path toks = none := by
  unfold launch
  cases hasm : assemble wb path toks with
  | ok r => exact absurd hasm (h r)
  | error e => rfl

/-- Settles O60: the image is there exactly if no pass reports an error. -/
theorem assemblySucceedsIffEverythingResolves : Obligations.AssemblySucceedsIffEverythingResolves := by
  intro wordBits path toks
  refine ⟨?_, fun r st hasm hemit => ?_, fun c => launch_of_not_ok c⟩
  · simp only [assemble_eq_ok_iff, linkLabels_errors_eq_nil_iff]
    constructor
    · rintro ⟨r, st, hemit, hdisjoint, hresolved, -⟩
      exact ⟨st, hemit, hdisjoint, hresolved⟩
    · rintro ⟨st, hemit, hdisjoint, hresolved⟩
      exact ⟨_, st, hemit, hdisjoint, hresolved, rfl⟩
  · obtain ⟨st', hemit', -, -, rfl⟩ := (assemble_eq_ok_iff wordBits path toks r).1 hasm
    rw [hemit] at hemit'
    cases hemit'
    rfl

end Sys2Proof.Assembler
end

section
/-! PROOFS. Boot, the fetch and the execute cycle, and the invariant that every step keeps (40_core_cycle.md R142 to R155;
60_exceptions.md R274, R276). -/

namespace Sys2Proof.Smol2
open Sys2Proof.Machine

/-! ## Boot (R142, R143) -/

/-- Before the first fetch, `boot` has a step (R143). -/
theorem boot_of_admitted {wb : Nat} (c : Config wb) (now : HostTime) {s : State wb}
    (h : s.run = .idle ∨ s.run = .running ∧ s.currentInstruction = none) : boot c now s = .next (bootState c now s) := by
  rcases h with hidle | ⟨hrunning, hnone⟩
  · simp only [boot, hidle]
  · simp only [boot, hrunning, hnone]

/-- `boot` leaves every register as construction does, at 0 (R142, R321). -/
theorem State.reg_bootState {wb : Nat} (c : Config wb) (now : HostTime) (s : State wb) (i : RegisterId) :
    (bootState c now s).reg i = 0 :=
  (State.reg_congr (bootState_regs s c now) i).trans (State.reg_unloaded wb i)

/-- Settles O11: the state `boot` makes, field by field. -/
theorem bootInitialisesEveryField : Obligations.BootInitialisesEveryField := by
  intro wb c now s hadmitted
  exact ⟨bootState c now s, boot_of_admitted c now hadmitted, rfl, rfl, State.reg_bootState c now s, rfl, rfl, rfl, rfl,
    rfl, rfl, rfl, rfl⟩

/-- Settles O12: a booted state is running and has fetched nothing, so `boot` is admitted in it and writes the same fields. -/
theorem bootAdmittedOnlyBeforeTheFirstCycle : Obligations.BootAdmittedOnlyBeforeTheFirstCycle := by
  intro wb c now later s
  refine ⟨⟨fun ⟨t, hboot⟩ => (boot_next c hboot).1, fun hadmitted => ⟨_, boot_of_admitted c now hadmitted⟩⟩, ?_⟩
  intro t hboot
  obtain rfl := (boot_next c hboot).2
  exact boot_of_admitted c later (.inr ⟨rfl, rfl⟩)

/-! ## Fetch (R144, R145) -/

/-- Settles O14: a concatenation shifts its high part up by the low part's width. -/
theorem fetchOrderFormsTheWord : Obligations.FetchOrderFormsTheWord := by
  intro b0 b1 b2 b3
  simp only [assembleWord, toNat_append_add]
  omega

/-- A fetch takes the access fault of the first byte that fails its check, and records that there is no instruction (R144). -/
theorem fetchInstruction_of_check_some {wb : Nat} (c : Config wb) {s : State wb} {k : Nat} {kind : FaultKind}
    (hk : k < insnBytes) (hbefore : ∀ j < k, Mmu.check c (s.rip.toNat + j) .read = none)
    (hat : Mmu.check c (s.rip.toNat + k) .read = some kind) :
    fetchInstruction c s = (none,
      { fireException (.accessFault kind (s.rip.toNat + k) .read) s with currentInstruction := none }) := by
  rcases fetchInstruction_cases c s with ⟨hall, -⟩ | ⟨k', kind', -, hbefore', hat', hfetch⟩
  · simp [hall k hk] at hat
  · obtain hlt | rfl | hlt := Nat.lt_trichotomy k' k
    · simp [hbefore k' hlt] at hat'
    · obtain rfl : kind' = kind := Option.some.inj (hat'.symm.trans hat)
      exact hfetch
    · simp [hbefore' k hlt] at hat

/-- The base Mmu passes the read of the 4 bytes at an address if they lie in the store and may be read (R63, R144). -/
theorem Mmu.check_word_of_permitted {wb : Nat} (c : Config wb) {a : Nat} (hbase : c.BaseMmu) (hin : a + 3 < c.memSize)
    (hpermits : ∀ k < insnBytes, c.permits (a + k) .read = true) :
    ∀ k < insnBytes, Mmu.check c (a + k) .read = none := by
  intro k hk
  have hk4 : k < 4 := hk
  exact Mmu.check_of_permitted c hbase (by omega) (hpermits k hk)

/-- Settles O15: the base Mmu's check passes a byte inside the store that may be read, and the first byte that is not one
gives the fault. -/
theorem fetchReadsFourBytesAtRip : Obligations.FetchReadsFourBytesAtRip := by
  intro wb c s hbase
  refine ⟨fun hin hpermits => ?_, fun k hk hend hpermits => ?_, fun k hk hin hdenied hpermits => ?_⟩
  · exact ⟨wordAt c s s.rip.toNat, rfl,
      fetchInstruction_of_check_none c (Mmu.check_word_of_permitted c hbase hin hpermits)⟩
  · exact fetchInstruction_of_check_some c hk (fun j hj => Mmu.check_of_permitted c hbase (by omega) (hpermits j hj))
      (Mmu.check_of_memSize_le c (by omega) .read)
  · exact fetchInstruction_of_check_some c hk (fun j hj => Mmu.check_of_permitted c hbase (by omega) (hpermits j hj))
      (Mmu.check_of_denied c hin hdenied)

/-! ## The cycle (R146 to R155) -/

section
variable {wb : Nat} (c : Config wb) (run : InsnWord → State wb → Outcome wb) {s s' : State wb}

/-- A cycle in `Running` does with the fetched word what it is to do (R148). -/
theorem cycleWith_of_fetch_some {w : InsnWord} (hrun : s.run = .running) (hfetch : fetchInstruction c s = (some w, s')) :
    cycleWith c run s = run w s' := by
  simp only [cycleWith, hrun, hfetch]

/-- A cycle in `Running` whose fetch fails ends where the fetch left it (R147). -/
theorem cycleWith_of_fetch_none (hrun : s.run = .running) (hfetch : fetchInstruction c s = (none, s')) :
    cycleWith c run s = .next s' := by
  simp only [cycleWith, hrun, hfetch]

end

/-- Settles O16: a cycle in `Running` ends in a next state, whatever its fetch answers. -/
theorem executeSingleOnlyWhenRunning : Obligations.ExecuteSingleOnlyWhenRunning := by
  intro wb c E s
  refine ⟨fun ⟨t, hcycle⟩ => (executeSingle_next c E hcycle).1, fun hrun => ?_⟩
  rcases hfetch : fetchInstruction c s with ⟨_ | w, s'⟩
  · exact ⟨s', cycleWith_of_fetch_none c _ hrun hfetch⟩
  · exact ⟨_, cycleWith_of_fetch_some c _ hrun hfetch⟩

/-- Settles O17: the only failing fetch is one that has taken an access fault. -/
theorem fetchFailureEndsTheCycle : Obligations.FetchFailureEndsTheCycle := by
  intro wb c E s hrun hnone
  rcases fetchInstruction_cases c s with ⟨-, hfetch⟩ | ⟨k, kind, -, -, -, hfetch⟩
  · simp [hfetch] at hnone
  · exact ⟨kind, _, cycleWith_of_fetch_none c _ hrun hfetch⟩

/-- The end of a completed cycle as one update of the body's state (R148). -/
theorem completeCycle_eq {wb : Nat} (t0 : Bool) (n0 a : Word wb) (sched : Option (Word wb)) (halting : Bool)
    (s : State wb) :
    completeCycle t0 n0 a sched halting s = { s with
      rip := advance t0 n0 a
      nextRip := sched.getD s.nextRip
      tBit := sched.isSome
      executedOps := s.executedOps + 1
      trace := s.trace ++ [.keepalive]
      run := if halting then .halted else s.run } := by
  cases sched <;> cases halting <;> rfl

/-- Settles O19: the end of the cycle updates the body's state, and a body that returns normally has left the fields it
reads there as they were at the start. -/
theorem completedCycleAdvancesCountsAndHalts : Obligations.CompletedCycleAdvancesCountsAndHalts := by
  intro wb c w b s t sched halting hbody
  have hend := runBody_end c w s.rip s.tBit b s none false
  rw [hbody] at hend
  obtain ⟨hframe, hrun, htrace⟩ := hend
  calc runCycle c w b s
      = completeCycle s.tBit s.nextRip s.rip sched halting t := by simp only [runCycle, hbody]
    _ = _ := by rw [completeCycle_eq, hframe.nextRip, hframe.executedOps, hrun, htrace]; rfl

/-- Settles O20: a body that a fault ended has kept its frame and taken that one fault; a load outside the store takes
its fault in the state the register write left. -/
theorem bodyFaultEndsTheCycle : Obligations.BodyFaultEndsTheCycle := by
  constructor
  · intro wb c w b s t hbody
    have hend := runBody_end c w s.rip s.tBit b s none false
    rw [hbody] at hend
    obtain ⟨hframe, hfault⟩ := hend
    exact ⟨by simp only [runCycle, hbody], hframe.rip, hframe.nextRip, hframe.tBit, hframe.executedOps,
      hframe.currentInstruction, hfault⟩
  · intro wb c w i v p k s hout
    simp only [runCycle, runBody, memRead_of_check_some c (Mmu.check_of_memSize_le c hout .read)]
    rfl

/-- Everything a next state of `execute_single` can be (R147 to R149): the end of a completed cycle, whose body has kept its
frame, `run` and the trace; or a state that has taken exactly one fault and has kept the same frame. -/
theorem executeSingle_cases {wb : Nat} (c : Config wb) (E : Exec wb) {s t : State wb} (h : executeSingle c E s = .next t) :
    (∃ w u sched halting, BodyFrame c { s with currentInstruction := some w } u ∧ u.run = .running ∧ u.trace = s.trace ∧
      t = completeCycle s.tBit s.nextRip s.rip sched halting u) ∨
    (∃ fetched r, BodyFrame c { s with currentInstruction := fetched } t ∧ t.run = .faulted r ∧
      t.trace = s.trace ++ [.panic r]) := by
  have hrunning := (executeSingle_next c E h).1
  rcases fetchInstruction_cases c s with ⟨-, hfetch⟩ | ⟨k, kind, -, -, -, hfetch⟩
  · obtain rfl := Host.Outcome.next.inj ((cycleWith_of_fetch_some c _ hrunning hfetch).symm.trans h)
    rcases runCycle_cases c (wordAt c s s.rip.toNat) (E (wordAt c s s.rip.toNat))
      { s with currentInstruction := some (wordAt c s s.rip.toNat) } with
      ⟨u, sched, halting, hcycle, hframe, hrun, htrace⟩ | ⟨r, hframe, hrun, htrace⟩
    · exact .inl ⟨_, u, sched, halting, hframe, hrun.trans hrunning, htrace, hcycle⟩
    · exact .inr ⟨_, r, hframe, hrun, htrace⟩
  · obtain rfl := Host.Outcome.next.inj ((cycleWith_of_fetch_none c _ hrunning hfetch).symm.trans h)
    exact .inr ⟨none, _, .fireException c { s with currentInstruction := none } _, rfl, rfl⟩

/-- A cycle that takes no fault advances `rip` as R150 says, and `next_rip` keeps its value unless a transfer is pending at
its end (R151). -/
theorem executeSingle_pointers {wb : Nat} (c : Config wb) (E : Exec wb) {s t : State wb}
    (h : executeSingle c E s = .next t) (hfault : ∀ r, t.run ≠ .faulted r) :
    t.rip = advance s.tBit s.nextRip s.rip ∧ (t.tBit = false → t.nextRip = s.nextRip) := by
  rcases executeSingle_cases c E h with ⟨w, u, sched, halting, hframe, -, -, rfl⟩ | ⟨_, r, -, hrun, -⟩
  · refine ⟨completeCycle_rip .., fun htBit => ?_⟩
    rw [completeCycle_tBit, Option.isSome_eq_false_iff, Option.isNone_iff_eq_none] at htBit
    rw [completeCycle_nextRip, htBit]
    exact hframe.nextRip
  · exact absurd hrun (hfault r)

/-- Settles O21: both cycles advance as R150 says, the second one from the first one's `t_bit` and `next_rip`. -/
theorem transferTakesEffectAfterOneDelaySlot : Obligations.TransferTakesEffectAfterOneDelaySlot := by
  intro wb c E s t u hfirst hrunning hsecond hfault
  have hnofault : ∀ r, t.run ≠ .faulted r := by simp [hrunning]
  obtain ⟨htrip, htnext⟩ := executeSingle_pointers c E hfirst hnofault
  obtain ⟨hurip, -⟩ := executeSingle_pointers c E hsecond hfault
  refine ⟨htrip, fun htBit => ?_, fun htBit => ⟨?_, htnext htBit⟩⟩
  · rw [hurip, htBit]; rfl
  · rw [hurip, htBit]; rfl

/-! ## Counting (R152, R153) -/

/-- What one call of `execute_single` does to the counter and to the keepalives: one more each, unless it takes a fault. -/
theorem executeSingle_counts {wb : Nat} (c : Config wb) (E : Exec wb) {s t : State wb} (h : executeSingle c E s = .next t) :
    ((∀ r, t.run ≠ .faulted r) ∧ t.executedOps = s.executedOps + 1 ∧ keepalives t.trace = keepalives s.trace + 1) ∨
    ((∃ r, t.run = .faulted r) ∧ t.executedOps = s.executedOps ∧ keepalives t.trace = keepalives s.trace) := by
  rcases executeSingle_cases c E h with ⟨w, u, sched, halting, hframe, hrun, htrace, rfl⟩ | ⟨_, r, hframe, hrun, htrace⟩
  · refine .inl ⟨fun r => ?_, ?_, ?_⟩
    · rw [completeCycle_run, hrun]; cases halting <;> simp
    · rw [completeCycle_executedOps, hframe.executedOps]
    · rw [completeCycle_trace, htrace, keepalives_append]; rfl
  · exact .inr ⟨⟨r, hrun⟩, hframe.executedOps, by rw [htrace, keepalives_append]; rfl⟩

/-- A core that is not running makes no cycle (R146), so only no calls at all end in a next state. -/
theorem cycles_of_not_running {wb : Nat} (c : Config wb) (E : Exec wb) {n : Nat} {s t : State wb}
    (h : cycles c E n s = .next t) (hrun : s.run ≠ .running) : t = s := by
  cases n with
  | zero => exact (Host.Outcome.next.inj h).symm
  | succ n =>
    rw [cycles] at h
    split at h
    case h_1 u hcycle => exact absurd (executeSingle_next c E hcycle).1 hrun
    all_goals cases h

/-- Calls of `execute_single` that take no fault add one each to the counter and to the keepalives. -/
theorem cycles_counts {wb : Nat} (c : Config wb) (E : Exec wb) {n : Nat} {s t : State wb} (h : cycles c E n s = .next t)
    (hfault : ∀ r, t.run ≠ .faulted r) :
    t.executedOps = s.executedOps + n ∧ keepalives t.trace = keepalives s.trace + n := by
  induction n generalizing s with
  | zero =>
    obtain rfl := Host.Outcome.next.inj h
    exact ⟨rfl, rfl⟩
  | succ n ih =>
    rw [cycles] at h
    split at h
    case h_1 u hcycle =>
      rcases executeSingle_counts c E hcycle with ⟨-, hops, hkeep⟩ | ⟨⟨r, hrun⟩, -, -⟩
      · obtain ⟨hops', hkeep'⟩ := ih h
        omega
      · obtain rfl := cycles_of_not_running c E h (by simp [hrun])
        exact absurd hrun (hfault r)
    all_goals cases h

/-- Settles O22: induction over the calls, and the faulting call's own count. -/
theorem everyFaultFreeCycleIsCounted : Obligations.EveryFaultFreeCycleIsCounted := by
  intro wb c E
  refine ⟨fun n s t hcycles hfault => cycles_counts c E hcycles hfault, fun s t r hcycle hrun => ?_⟩
  rcases executeSingle_counts c E hcycle with ⟨hnofault, -, -⟩ | ⟨-, hcounts⟩
  · exact absurd hrun (hnofault r)
  · exact hcounts

/-! ## The invariant (R141, R143, R152, R153, R274) -/

/-- The invariant does not speak of the host's side. -/
theorem State.Inv.of_host {wb : Nat} {c : Config wb} {s : State wb} (h : s.Inv c) (script : List HostCall)
    (replies : List Bool) : State.Inv c { s with host := script, replies := replies } :=
  ⟨h.memory, h.panicOnce, h.counted, h.idleFresh, h.bootFresh⟩

/-- `boot` keeps the invariant: it is admitted only in a state where nothing has been counted or surfaced (R143). -/
theorem State.Inv.boot {wb : Nat} {c : Config wb} {now : HostTime} {s t : State wb} (h : s.Inv c)
    (hboot : Smol2.boot c now s = .next t) : t.Inv c := by
  obtain ⟨hadmitted, rfl⟩ := boot_next c hboot
  have hfresh : s.Fresh := hadmitted.elim h.idleFresh fun ⟨hrunning, hnone⟩ => h.bootFresh hrunning hnone
  have hreasons : s.run.reasons = [] := by
    rcases hadmitted with hrun | ⟨hrun, -⟩ <;> rw [hrun] <;> rfl
  exact {
    memory := h.memory
    panicOnce := h.panicOnce.trans hreasons
    counted := h.counted.trans hfresh.1
    idleFresh := fun _ => ⟨rfl, rfl, rfl⟩
    bootFresh := fun _ _ => ⟨rfl, rfl, rfl⟩ }

/-- A cycle keeps the invariant: it surfaces a fault exactly if it takes one, it counts what it surfaces, and it has fetched
if it ends `Running`. -/
theorem State.Inv.executeSingle {wb : Nat} {c : Config wb} {E : Exec wb} {s t : State wb} (h : s.Inv c)
    (hcycle : Smol2.executeSingle c E s = .next t) : t.Inv c := by
  have hpanics : panics s.trace = [] := by rw [h.panicOnce, (executeSingle_next c E hcycle).1]; rfl
  rcases executeSingle_cases c E hcycle with
    ⟨w, u, sched, halting, hframe, hrun, htrace, rfl⟩ | ⟨fetched, r, hframe, hrun, htrace⟩
  · have hfetched : u.currentInstruction = some w := hframe.currentInstruction
    exact {
      memory := by rw [completeCycle_mem]; exact hframe.memory h.memory
      panicOnce := by
        rw [completeCycle_trace, panics_append, htrace, hpanics, completeCycle_run, hrun]
        cases halting <;> rfl
      counted := by
        rw [completeCycle_trace, keepalives_append, htrace, h.counted, completeCycle_executedOps, hframe.executedOps]
        rfl
      idleFresh := fun hidle => by rw [completeCycle_run, hrun] at hidle; cases halting <;> cases hidle
      bootFresh := fun _ hnone => by rw [completeCycle_currentInstruction, hfetched] at hnone; cases hnone }
  · exact {
      memory := hframe.memory h.memory
      panicOnce := by rw [htrace, panics_append, hpanics, hrun]; rfl
      counted := by rw [htrace, keepalives_append, h.counted, hframe.executedOps]; rfl
      idleFresh := fun hidle => by rw [hrun] at hidle; cases hidle
      bootFresh := fun hrunning => by rw [hrun] at hrunning; cases hrunning }

/-- `fire_interrupt` keeps the invariant: interrupts are enabled only once a cycle has fetched (R143, R282). -/
theorem State.Inv.fireInterrupt {wb : Nat} {c : Config wb} {id : Nat} {s t : State wb} {answer : Bool} (h : s.Inv c)
    (hfire : Smol2.fireInterrupt c id s = .next (answer, t)) : t.Inv c := by
  obtain ⟨hrunning, ⟨-, -, rfl⟩ | ⟨henabled, -, entry, tBit, -, rfl, -, -⟩⟩ := fireInterrupt_next c hfire
  · exact h
  · have hfetched : s.currentInstruction ≠ none := fun hnone => by
      obtain ⟨-, hdisabled, -⟩ := h.bootFresh hrunning hnone
      rw [henabled] at hdisabled
      cases hdisabled
    exact {
      memory := h.memory
      panicOnce := h.panicOnce
      counted := h.counted
      idleFresh := fun hidle => by rw [enterInterrupt_run, hrunning] at hidle; cases hidle
      bootFresh := fun _ hnone => absurd hnone hfetched }

/-- Every call of the host keeps the invariant, for any collaborator (R298). -/
theorem State.Inv.performCall {wb : Nat} {c : Config wb} {E : Exec wb} {call : HostCall} {s t : State wb} (h : s.Inv c)
    (hcall : Smol2.performCall c (Smol2.executeSingle c E) call s = .next t) : t.Inv c := by
  cases call with
  | boot now => exact h.boot hcall
  | executeSingle => exact h.executeSingle hcall
  | fireInterrupt id =>
    rw [Smol2.performCall] at hcall
    split at hcall
    case h_1 answer u hfire =>
      obtain rfl := Host.Outcome.next.inj hcall
      exact (h.fireInterrupt hfire).of_host u.host (u.replies ++ [answer])
    all_goals cases hcall

/-- Every step of the core keeps the invariant, for any configuration and collaborator (R300). -/
theorem State.Inv.coreStep {wb : Nat} {c : Config wb} {E : Exec wb} {s t : State wb} (h : s.Inv c)
    (hstep : Smol2.coreStep c E s = .next t) : t.Inv c := by
  rw [Smol2.coreStep, hostStep] at hstep
  split at hstep
  · exact h.executeSingle hstep
  · exact (h.of_host _ s.replies).performCall hstep

end Sys2Proof.Smol2
end

section
/-! PROOFS. The step of the fixed machine: it is the core's step with TISA, it runs the decoded instruction, and it keeps the
invariant (40_core_cycle.md R144, R145, R148; 41_collaborator.md R180; 42_test_isa.md R222). -/

namespace Sys2Proof.Smol2
open Sys2Proof.Machine

theorem length_wordBytes (o : FetchOrder) (w : InsnWord) : (wordBytes o w).length = 4 := by
  cases o <;> rfl

/-- The 4 bytes of a word form that word again, in either order (R145). -/
theorem assembleWord_wordBytes (o : FetchOrder) (w : InsnWord) (d0 d1 d2 d3 : Byte) :
    assembleWord o ((wordBytes o w)[0]?.getD d0) ((wordBytes o w)[1]?.getD d1) ((wordBytes o w)[2]?.getD d2)
      ((wordBytes o w)[3]?.getD d3) = w := by
  cases o <;> exact wordByte_append w

/-- The word laid at `rip` is the word the store then holds there. -/
theorem wordAt_placeWord {wb : Nat} (c : Config wb) (w : InsnWord) (s : State wb) (h : s.rip.toNat + 3 < c.memSize) :
    wordAt c (placeWord c w s) s.rip.toNat = w := by
  have hfits : s.rip.toNat + (wordBytes c.fetchOrder w).length ≤ c.memSize := by rw [length_wordBytes]; omega
  have hbyte (k : Nat) : (placeWord c w s).byteAt c (s.rip.toNat + k) =
      (wordBytes c.fetchOrder w)[k]?.getD (s.byteAt c (s.rip.toNat + k)) := by
    refine (Memory.get_place c.initMem c.memSize s.mem s.rip.toNat _ _ hfits).trans ?_
    rw [if_pos (Nat.le_add_right _ k), Nat.add_sub_cancel_left]
    rfl
  have hfirst := hbyte 0
  rw [Nat.add_zero] at hfirst
  rw [wordAt, hfirst, hbyte 1, hbyte 2, hbyte 3]
  exact assembleWord_wordBytes ..

end Sys2Proof.Smol2

namespace Sys2Proof.Machine
open Sys2Proof.Smol2

/-- Dispatching the decoded word is running the body that `EXEC` gives the word (R180, R222). -/
theorem exec_decodeWord (w : InsnWord) (s : State) :
    exec (decodeWord w) s = .next (runCycle Config.tisa w (tisaExec w) s) := by
  rw [exec_eq_runCycle, (encodeOfDecodeIsIdentity w).1, bodyOf_decodeWord]

/-- Settles O36: the two steps differ only in what they do with the fetched word. -/
theorem stepIsTheCoreWithTisa : Obligations.StepIsTheCoreWithTisa := by
  intro s
  simp only [step, coreStep, exec_decodeWord]
  rfl

/-- Settles O39: the machine's step is the core's with TISA, and every step of the core keeps the invariant. -/
theorem stepKeepsTheInvariant : Obligations.StepKeepsTheInvariant := by
  intro s t hinv hstep
  rw [stepIsTheCoreWithTisa] at hstep
  exact hinv.coreStep hstep

/-- A step that is a cycle whose 4 bytes lie in the store runs the instruction decoded from the word at `rip` (R148). -/
theorem cycle_runs_decoded {s : State} (hrun : s.run = .running) (hin : s.rip.toNat + 3 < Config.tisa.memSize) :
    cycleWith Config.tisa (fun w t => exec (decodeWord w) t) s =
      exec (decodeWord (wordAt Config.tisa s s.rip.toNat))
        { s with currentInstruction := some (wordAt Config.tisa s s.rip.toNat) } :=
  cycleWith_of_fetch_some Config.tisa _ hrun (fetchInstruction_of_check_none Config.tisa
    (Mmu.check_word_of_permitted Config.tisa (fun _ _ => rfl) hin fun _ _ => rfl))

/-- With no call pending the step is the cycle (R324, log 7). -/
theorem step_of_host_nil {s : State} (h : s.host = []) :
    step s = cycleWith Config.tisa (fun w t => exec (decodeWord w) t) s := by
  simp only [step, hostStep, h]

/-- With `execute_single` pending the step takes that call off the script and is the cycle (R298, log 7). -/
theorem step_of_host_executeSingle {s : State} {rest : List HostCall} (h : s.host = .executeSingle :: rest) :
    step s = cycleWith Config.tisa (fun w t => exec (decodeWord w) t) { s with host := rest } := by
  simp only [step, hostStep, h, performCall]

/-- Settles O33: the word at `rip` is the one the decoded instruction encodes to, and the cycle runs that instruction. -/
theorem stepRunsTheDecodedInstruction : Obligations.StepRunsTheDecodedInstruction := by
  intro s i hrun hin hdecode
  have hi : decodeWord (wordAt Config.tisa s s.rip.toNat) = i := congrArg Prod.fst (Except.ok.inj hdecode)
  rw [← hi, (encodeOfDecodeIsIdentity _).1]
  refine ⟨fun hhost => ?_, fun rest hhost => ?_⟩
  · rw [step_of_host_nil hhost, cycle_runs_decoded hrun hin]
  · rw [step_of_host_executeSingle hhost]
    exact cycle_runs_decoded (s := { s with host := rest }) hrun hin

/-- At full width the word is laid as it is. -/
theorem State.withFetchWord_full (s : State) (w : InsnWord) : s.withFetchWord 32 w.toNat = placeWord Config.tisa w s := by
  rw [State.withFetchWord, Nat.mod_eq_of_lt w.isLt, BitVec.ofNat_toNat, BitVec.setWidth_eq]

/-- Settles O35: the word laid at `rip` is the one the cycle fetches. -/
theorem placedWordIsTheNextInstruction : Obligations.PlacedWordIsTheNextInstruction := by
  intro s w hin
  refine ⟨decodeTableWord_full w, ?_⟩
  have hword : wordAt Config.tisa (placeWord Config.tisa w s) (placeWord Config.tisa w s).rip.toNat = w :=
    wordAt_placeWord Config.tisa w s hin
  have hcycle := cycle_runs_decoded (s := placeWord Config.tisa w s) rfl hin
  rw [hword] at hcycle
  rw [s.withFetchWord_full w, step_of_host_nil rfl]
  exact hcycle

end Sys2Proof.Machine
end

section
/-! PROOFS. The collaborator: what no body can observe and what no body can change (41_collaborator.md R188, R191 to R194;
10_state.md R30, R34, R35). -/

namespace Sys2Proof.Smol2
open Sys2Proof.Machine

/-! ## What no body can observe (R194, R30)

Hiding the fields a body cannot observe commutes with everything a cycle does: hidden before or hidden only after, the
visible state at the end is the same. -/

section
variable {wb : Nat} (c : Config wb)

/-- The end of a body with the fields hidden that no body can observe. -/
def BodyResult.visible : BodyResult wb → BodyResult wb
  | .completed s sched halting => .completed s.visible sched halting
  | .aborted s => .aborted s.visible

/-- Every call of a body reads and writes visible fields only, and a fault's reason is made of them. -/
theorem runBody_visible (w : InsnWord) (a : Word wb) (t0 : Bool) (b : Body wb) (s : State wb)
    (sched : Option (Word wb)) (h : Bool) :
    (runBody c w a t0 b s sched h).visible = (runBody c w a t0 b s.visible sched h).visible := by
  induction b generalizing s sched h with
  | done => rfl
  | reg i k ih => exact ih (s.reg i) s sched h
  | setReg i v k ih => exact ih (s.setReg i v) sched h
  | load addr k ih =>
    cases hcheck : Mmu.check c addr.toNat .read with
    | none =>
      simp only [runBody, memRead_of_check_none c hcheck]
      exact ih (s.byteAt c addr.toNat) s sched h
    | some kind =>
      simp only [runBody, memRead_of_check_some c hcheck]
      rfl
  | store addr v k ih =>
    cases hcheck : Mmu.check c addr.toNat .write with
    | none =>
      simp only [runBody, memWrite_of_check_none c hcheck]
      exact ih { s with mem := Memory.set c.initMem s.mem addr.toNat v } sched h
    | some kind =>
      simp only [runBody, memWrite_of_check_some c hcheck]
      rfl
  | rip k ih => exact ih a s sched h
  | inDelaySlot k ih => exact ih t0 s sched h
  | schedule target k ih => exact ih s (some target) h
  | intEnabled k ih => exact ih s.enabled s sched h
  | setIntEnabled b k ih => exact ih (s.setIntEnabled b) sched h
  | intret k ih => exact ih s.intret s sched h
  | setIntret v k ih => exact ih (s.setIntret v) sched h
  | halt k ih => exact ih s sched true
  | undefined => rfl
  | undefinedBehavior what => rfl

/-- Of the hidden fields the end of a completed cycle reads the counter and the trace, and only to add to them (R152, R153). -/
theorem completeCycle_visible (t0 : Bool) (n0 a : Word wb) (sched : Option (Word wb)) (halting : Bool) (s : State wb) :
    (completeCycle t0 n0 a sched halting s).visible = (completeCycle t0 n0 a sched halting s.visible).visible := by
  rw [completeCycle_eq, completeCycle_eq]
  rfl

/-- The end of a cycle that started in `s`, from the end of its body (R148, R149). -/
def BodyResult.endCycle (s : State wb) : BodyResult wb → State wb
  | .aborted t => t
  | .completed t sched halting => completeCycle s.tBit s.nextRip s.rip sched halting t

theorem runCycle_eq_endCycle (w : InsnWord) (b : Body wb) (s : State wb) :
    runCycle c w b s = (runBody c w s.rip s.tBit b s none false).endCycle s := rfl

/-- The pointers and the flag sampled at a cycle's start are visible fields. -/
theorem BodyResult.endCycle_visible (s : State wb) (res : BodyResult wb) :
    (res.endCycle s).visible = (res.visible.endCycle s.visible).visible := by
  cases res with
  | completed t sched halting => exact completeCycle_visible s.tBit s.nextRip s.rip sched halting t
  | aborted t => rfl

/-- A cycle after its fetch, whatever its body: the body's calls, then the cycle's end. -/
theorem runCycle_visible (w : InsnWord) (b : Body wb) (s : State wb) :
    (runCycle c w b s).visible = (runCycle c w b s.visible).visible :=
  calc (runCycle c w b s).visible
      = ((runBody c w s.rip s.tBit b s none false).visible.endCycle s.visible).visible := by
        rw [runCycle_eq_endCycle, BodyResult.endCycle_visible]
    _ = ((runBody c w s.rip s.tBit b s.visible none false).visible.endCycle s.visible).visible := by
        rw [runBody_visible]
    _ = (runCycle c w b s.visible).visible := (BodyResult.endCycle_visible s.visible _).symm

/-- A cycle from what is visible of a state fetches the same word or takes the same fault, and ends in a state that looks the
same (R144, R148). -/
theorem executeSingle_visible (E : Exec wb) {s t : State wb} (h : executeSingle c E s = .next t) :
    ∃ u, executeSingle c E s.visible = .next u ∧ t.visible = u.visible := by
  have hrunning := (executeSingle_next c E h).1
  rcases fetchInstruction_cases c s with ⟨hall, hfetch⟩ | ⟨k, kind, hk, hbefore, hat, hfetch⟩
  · obtain rfl := Host.Outcome.next.inj ((cycleWith_of_fetch_some c _ hrunning hfetch).symm.trans h)
    refine ⟨_, cycleWith_of_fetch_some c _ hrunning (fetchInstruction_of_check_none c (s := s.visible) hall), ?_⟩
    exact (runCycle_visible ..).trans (runCycle_visible c _ _ { s.visible with currentInstruction := _ }).symm
  · obtain rfl := Host.Outcome.next.inj ((cycleWith_of_fetch_none c _ hrunning hfetch).symm.trans h)
    exact ⟨_, cycleWith_of_fetch_none c _ hrunning
      (fetchInstruction_of_check_some c (s := s.visible) hk hbefore hat), rfl⟩

end

/-- Settles O25: each of the two cycles ends like the one from the visible state, which the two states share. -/
theorem hiddenFieldsCannotBeObserved : Obligations.HiddenFieldsCannotBeObserved := by
  intro wb c E s s' t t' hvisible hcycle hcycle'
  obtain ⟨u, hu, htu⟩ := executeSingle_visible c E hcycle
  obtain ⟨u', hu', htu'⟩ := executeSingle_visible c E hcycle'
  rw [hvisible] at hu
  obtain rfl : u = u' := Host.Outcome.next.inj (hu.symm.trans hu')
  exact htu.trans htu'.symm

/-! ## What no body can change (R194) -/

/-- Settles O40: the invariant is the core's, not the fixed machine's. -/
theorem everyCollaboratorKeepsTheInvariant : Obligations.EveryCollaboratorKeepsTheInvariant :=
  fun _ _ _ _ _ hinv hstep => hinv.coreStep hstep

/-- Settles O24: a body keeps its frame, and the end of a completed cycle adds the one count. -/
theorem noCollaboratorReachesHostState : Obligations.NoCollaboratorReachesHostState := by
  intro wb c E s t hcycle
  rcases executeSingle_cases c E hcycle with ⟨w, u, sched, halting, hframe, -, -, rfl⟩ | ⟨fetched, r, hframe, -, -⟩
  · rw [completeCycle_startTimestamp, completeCycle_host, completeCycle_replies, completeCycle_executedOps,
      completeCycle_mem, hframe.executedOps]
    exact ⟨hframe.startTimestamp, hframe.host, hframe.replies, .inr rfl, hframe.memory⟩
  · exact ⟨hframe.startTimestamp, hframe.host, hframe.replies, .inl hframe.executedOps, hframe.memory⟩

/-! ## The order of a body's calls (R188, R191 to R193) -/

/-- Settles O23: the two bodies that return normally end as `completeCycle` says, with the second target and with the write
made after `halt`; the other two end in the fault they take. -/
theorem lastTargetWinsAndFaultBeatsHalt : Obligations.LastTargetWinsAndFaultBeatsHalt := by
  intro wb c w s T1 T2 v i
  have hlast : runCycle c w (.schedule T1 (.schedule T2 .done)) s =
      completeCycle s.tBit s.nextRip s.rip (some T2) false s := rfl
  have hhalt : runCycle c w (.halt (.setReg i v .done)) s =
      completeCycle s.tBit s.nextRip s.rip none true (s.setReg i v) := rfl
  have hundefined : runCycle c w (.halt .undefined) s = fireException (.undefinedOpcode w s.rip) s := rfl
  have hbehavior (what : String) :
      runCycle c w (.undefinedBehavior what) s = fireException (.execFault what w s.rip) s := rfl
  rw [hlast, hhalt, hundefined]
  refine ⟨completeCycle_nextRip .., completeCycle_tBit .., ?_, completeCycle_run .., fireException_run .., fun what => ?_⟩
  · rw [State.reg_congr (completeCycle_regs ..)]
    exact s.reg_setReg_same i v
  · rw [hbehavior, fireException_run]

end Sys2Proof.Smol2
end

section
/-! PROOFS. TISA's decode table, the words of its formats and the values its instructions write (42_test_isa.md R221 to R228,
R239, R240). -/

namespace Sys2Proof

/-! ## The decode table (R222) -/

/-- The opcode and the zero fields of a TISA instruction's word pick out its own row of the table. -/
theorem rows_covering_encodeWord (i : Instr) (hdispatch : ∀ w, i ≠ .execDispatch w) :
    (tisaRows.filter (·.covers (encodeWord i))).map (·.mnemonic) = [i.mnemonic] := by
  cases i with
  | execDispatch w => exact absurd rfl (hdispatch w)
  | _ =>
    simp only [tisaRows, List.filter_cons, List.filter_nil, covers_LI, covers_SHB, covers_ADD, covers_SUB, covers_LB,
      covers_SB, covers_JR, covers_BZ, covers_EI, covers_DI, covers_RDI, covers_RETI, covers_NOP, covers_JALR,
      covers_ADDI, covers_HALT]
    simp [encodeWord, Instr.mnemonic]

/-- EXEC-DISPATCH carries the word it was decoded from, which is outside TISA (R102, R222). -/
theorem not_tisaDefines_of_decodeWord_execDispatch {w v : InsnWord} (h : decodeWord w = .execDispatch v) :
    tisaDefines w = false := by
  obtain ⟨hword, hwf⟩ := encodeOfDecodeIsIdentity w
  rw [h] at hword hwf
  obtain rfl : v = w := hword
  exact (wf_execDispatch_iff v).1 hwf

/-- No row of the table covers a word outside TISA (R222). -/
theorem rows_covering_of_not_tisaDefines {w : InsnWord} (h : tisaDefines w = false) :
    tisaRows.filter (·.covers w) = [] := by
  simpa only [List.filter_eq_nil_iff, tisaDefines, List.any_eq_false] using h

/-- The decoder has no row for the opcodes that the table does not list (R222). -/
theorem decodeWord_of_unlisted_opcode {w : InsnWord}
    (h : fieldOp w = 0 ∨ (0x10 ≤ (fieldOp w).toNat ∧ (fieldOp w).toNat ≤ 0xFE)) : decodeWord w = .execDispatch w := by
  have hop : (fieldOp w).toNat = 0 ∨ (0x10 ≤ (fieldOp w).toNat ∧ (fieldOp w).toNat ≤ 0xFE) :=
    h.imp_left fun hzero => congrArg BitVec.toNat hzero
  unfold decodeWord
  split
  case h_17 => rfl
  all_goals omega

end Sys2Proof

namespace Sys2Proof.Machine
open Sys2Proof.Smol2

/-- The body `EXEC` gives a word outside TISA (R192, R222). -/
theorem tisaExec_of_not_tisaDefines {w : InsnWord} (h : tisaDefines w = false) : tisaExec w = .undefined := by
  simp only [tisaExec, decodeWord_of_not_tisaDefines h]

/-- Settles O3: a word is the encoding of the instruction it decodes to, and that encoding is in the instruction's own row. -/
theorem decodeFollowsTheOpcodeTable : Obligations.DecodeFollowsTheOpcodeTable := by
  refine ⟨fun w => ?_, fun w hundef => ⟨decodeWord_of_not_tisaDefines hundef, tisaExec_of_not_tisaDefines hundef⟩,
    fun w hop => not_tisaDefines_of_decodeWord_execDispatch (decodeWord_of_unlisted_opcode hop), fun i s hwf => ?_,
    by decide, by decide⟩
  · split
    next v hdispatch =>
      rw [rows_covering_of_not_tisaDefines (not_tisaDefines_of_decodeWord_execDispatch hdispatch)]
      rfl
    next hrow =>
      have hcover := rows_covering_encodeWord (decodeWord w) hrow
      rwa [(encodeOfDecodeIsIdentity w).1] at hcover
  · have hcycle := exec_decodeWord (encodeWord i) s
    rwa [decodeWord_encodeWord hwf] at hcycle

/-- Settles O4: the decoder evaluates each of the written-out words. -/
theorem specWordsDecode : Obligations.SpecWordsDecode := by
  unfold Obligations.SpecWordsDecode
  decide

end Sys2Proof.Machine

namespace Sys2Proof

/-! ## Encodings (R221) -/

@[simp] theorem toNat_fieldOf (r : RegisterId) : (fieldOf r).toNat = r.val :=
  Nat.mod_eq_of_lt r.isLt

/-- The word of a row whose fields used are A and I. -/
theorem toNat_formatT_AI (op : BitVec 8) (A : RegisterId) (I : Byte) :
    (formatT op (fieldOf A) 0 I).toNat = op.toNat * 2 ^ 24 + A.val * 2 ^ 20 + BitVec.toNat I := by
  simp [toNat_formatT]

/-- The word of a row whose fields used are A and B. -/
theorem toNat_formatT_AB (op : BitVec 8) (A B : RegisterId) :
    (formatT op (fieldOf A) (fieldOf B) 0).toNat = op.toNat * 2 ^ 24 + A.val * 2 ^ 20 + B.val * 2 ^ 16 := by
  simp [toNat_formatT]

/-- The word of a row whose one field used is A. -/
theorem toNat_formatT_A (op : BitVec 8) (A : RegisterId) :
    (formatT op (fieldOf A) 0 0).toNat = op.toNat * 2 ^ 24 + A.val * 2 ^ 20 := by
  simp [toNat_formatT]

end Sys2Proof

namespace Sys2Proof.Smol2

/-! ## The values the instructions write, as arithmetic -/

theorem zext16_eq_ofNat (b : Byte) : zext16 b = BitVec.ofNat 16 (BitVec.toNat b) := by
  apply BitVec.eq_of_toNat_eq
  simp [zext16]

theorem lowByte_eq_ofNat (v : Word 16) : lowByte v = BitVec.ofNat 8 (v.toNat % 2 ^ 8) := by
  apply BitVec.eq_of_toNat_eq
  simp [lowByte]

/-- The shifted-in byte takes the place of the 8 zero bits, so the disjunction is a sum (R224). -/
theorem shl8_or_zext16_eq_ofNat (v : Word 16) (b : Byte) :
    ((v <<< 8) &&& 0xFFFF) ||| zext16 b = BitVec.ofNat 16 (v.toNat * 2 ^ 8 % 2 ^ 16 + BitVec.toNat b) := by
  have hmask : (v <<< 8) &&& (0xFFFF : Word 16) = v <<< 8 := BitVec.and_allOnes
  have hb : BitVec.toNat b < 2 ^ 8 := BitVec.isLt b
  have hhigh : v.toNat * 2 ^ 8 % 2 ^ 16 = (v.toNat % 2 ^ 8) <<< 8 := by rw [Nat.shiftLeft_eq]; omega
  apply BitVec.eq_of_toNat_eq
  rw [hmask, BitVec.toNat_or, BitVec.toNat_shiftLeft, Nat.shiftLeft_eq, hhigh, BitVec.toNat_ofNat,
    Nat.shiftLeft_add_eq_or_of_lt hb, Nat.or_mod_two_pow, zext16_eq_ofNat, BitVec.toNat_ofNat, ← hhigh, Nat.mod_mod]

theorem add_eq_ofNat (x y : Word 16) : x + y = BitVec.ofNat 16 ((x.toNat + y.toNat) % 2 ^ 16) := by
  apply BitVec.eq_of_toNat_eq
  simp

theorem sub_eq_ofInt (x y : Word 16) : x - y = BitVec.ofInt 16 (x.toNat - y.toNat) := by
  have hx := x.isLt
  have hy := y.isLt
  apply BitVec.eq_of_toNat_eq
  rw [BitVec.toNat_sub, BitVec.toNat_ofInt]
  omega

/-- Sign extension keeps the signed value, and addition wraps (R8, R240). -/
theorem add_sext16_eq_ofInt (x : Word 16) (b : Byte) : x + sext16 b = BitVec.ofInt 16 (x.toNat + BitVec.toInt b) := by
  simp [BitVec.ofInt_add, sext16, BitVec.signExtend]

end Sys2Proof.Smol2
end

section
/-! PROOFS. The TISA instructions one by one: the next state of each, its faults, and what the host's interrupt meets at its
boundary (42_test_isa.md R223 to R236, R239, R240; 60_exceptions.md R281 to R283). -/

namespace Sys2Proof.Smol2
open Sys2Proof.Machine

/-! ## Cycles (R148 to R154) and interrupts at their boundary (R281 to R283) -/

/-- The end of a cycle writes no register. -/
@[simp] theorem State.reg_completeCycle {wb : Nat} (s : State wb) (t0 : Bool) (n0 a : Word wb)
    (sched : Option (Word wb)) (halting : Bool) (i : RegisterId) :
    (completeCycle t0 n0 a sched halting s).reg i = s.reg i :=
  State.reg_congr (completeCycle_regs ..) i

/-- The end of a cycle writes no byte. -/
@[simp] theorem State.byteAt_completeCycle {wb : Nat} (c : Config wb) (s : State wb) (t0 : Bool) (n0 a : Word wb)
    (sched : Option (Word wb)) (halting : Bool) (x : Nat) :
    (completeCycle t0 n0 a sched halting s).byteAt c x = s.byteAt c x :=
  State.byteAt_congr c (completeCycle_mem ..) x

section
variable (c : Config tisaWordBits) {s : Machine.State} {A B : RegisterId} (w : InsnWord)

/-- A load whose address passes the check (R227). -/
theorem runCycle_bodyLb_of_check_none (h : Mmu.check c (s.reg B).toNat .read = none) :
    runCycle c w (bodyLb A B) s =
      completeCycle s.tBit s.nextRip s.rip none false (s.setReg A (zext16 (s.byteAt c (s.reg B).toNat))) := by
  simp only [runCycle, bodyLb, runBody, memRead_of_check_none c h]

/-- A load whose address fails the check takes the fault and writes no register (R227). -/
theorem runCycle_bodyLb_of_check_some {kind : FaultKind} (h : Mmu.check c (s.reg B).toNat .read = some kind) :
    runCycle c w (bodyLb A B) s = fireException (.accessFault kind (s.reg B).toNat .read) s := by
  simp only [runCycle, bodyLb, runBody, memRead_of_check_some c h]

/-- A store whose address passes the check (R228). -/
theorem runCycle_bodySb_of_check_none (h : Mmu.check c (s.reg B).toNat .write = none) :
    runCycle c w (bodySb A B) s = completeCycle s.tBit s.nextRip s.rip none false
      { s with mem := Memory.set c.initMem s.mem (s.reg B).toNat (lowByte (s.reg A)) } := by
  simp only [runCycle, bodySb, runBody, memWrite_of_check_none c h]

/-- A store whose address fails the check takes the fault and writes no byte (R228). -/
theorem runCycle_bodySb_of_check_some {kind : FaultKind} (h : Mmu.check c (s.reg B).toNat .write = some kind) :
    runCycle c w (bodySb A B) s = fireException (.accessFault kind (s.reg B).toNat .write) s := by
  simp only [runCycle, bodySb, runBody, memWrite_of_check_some c h]

end

section
variable {wb : Nat} {c : Config wb} {id : Nat} {handler : Word wb} {s : State wb}

/-- A disabled interrupt is answered with false (R281). -/
theorem fireInterrupt_of_disabled (hid : c.handler id = some handler) (hrun : s.run = .running)
    (hdisabled : s.enabled = false) : fireInterrupt c id s = .next (false, s) := by
  simp [fireInterrupt, hid, hrun, hdisabled]

/-- An enabled interrupt with no transfer pending is accepted (R282). -/
theorem fireInterrupt_of_enabled (hid : c.handler id = some handler) (hrun : s.run = .running)
    (henabled : s.enabled = true) (hpending : s.tBit = false) :
    fireInterrupt c id s = .next (true, enterInterrupt handler false s) := by
  simp [fireInterrupt, hid, hrun, henabled, hpending]

/-- Under `Refuse` an enabled interrupt has no step while a transfer is pending (R283). -/
theorem fireInterrupt_of_pending_refuse (hid : c.handler id = some handler) (hrun : s.run = .running)
    (henabled : s.enabled = true) (hpending : s.tBit = true) (hrefuse : c.intInDelaySlot = .refuse) :
    fireInterrupt c id s = .refused .interruptInDelaySlot := by
  simp [fireInterrupt, hid, hrun, henabled, hpending, hrefuse]

end

/-- The ids of the TISA configuration have a handler (R220). -/
theorem tisa_handler_of_lt {id : Nat} (h : id < 4) :
    Config.tisa.handler id = some (BitVec.ofNat tisaWordBits (0x0080 + 0x10 * id)) :=
  if_pos h

end Sys2Proof.Smol2

namespace Sys2Proof.Machine
open Sys2Proof.Smol2

/-- A word that decodes to `i` does what `i` does. -/
theorem exec_decodeWord_of_eq {w : InsnWord} {i : Instr} {s t : State} (hdecode : decodeWord w = i)
    (hexec : exec i s = .next t) : exec (decodeWord w) s = .next t := by
  rw [hdecode, hexec]

/-! ## The next state of each instruction

Where the body makes no access to memory, `rfl` runs its few calls. -/

section
variable (A B : RegisterId) (I : Byte) (s : State)

theorem exec_li : exec (.li A I) s = .next (completeCycle s.tBit s.nextRip s.rip none false
    (s.setReg A (BitVec.ofNat 16 (BitVec.toNat I)))) := by
  rw [← zext16_eq_ofNat]; rfl

theorem exec_shb : exec (.shb A I) s = .next (completeCycle s.tBit s.nextRip s.rip none false
    (s.setReg A (BitVec.ofNat 16 ((s.reg A).toNat * 2 ^ 8 % 2 ^ 16 + BitVec.toNat I)))) := by
  rw [← shl8_or_zext16_eq_ofNat]; rfl

theorem exec_add : exec (.add A B) s = .next (completeCycle s.tBit s.nextRip s.rip none false
    (s.setReg A (BitVec.ofNat 16 (((s.reg A).toNat + (s.reg B).toNat) % 2 ^ 16)))) := by
  rw [← add_eq_ofNat]; rfl

theorem exec_sub : exec (.sub A B) s = .next (completeCycle s.tBit s.nextRip s.rip none false
    (s.setReg A (BitVec.ofInt 16 ((s.reg A).toNat - (s.reg B).toNat)))) := by
  rw [← sub_eq_ofInt]; rfl

theorem exec_addi : exec (.addi A I) s = .next (completeCycle s.tBit s.nextRip s.rip none false
    (s.setReg A (BitVec.ofInt 16 ((s.reg A).toNat + BitVec.toInt I)))) := by
  rw [← add_sext16_eq_ofInt]; rfl

theorem exec_jr : exec (.jr A) s = .next (completeCycle s.tBit s.nextRip s.rip (some (s.reg A)) false s) := rfl

theorem exec_bz : exec (.bz A B) s = .next
    (completeCycle s.tBit s.nextRip s.rip (if s.reg A = 0 then some (s.reg B) else none) false s) := by
  rw [exec_eq_runCycle, bodyOf, runCycle_bodyBz]

theorem exec_jalr : exec (.jalr A B) s = .next (completeCycle s.tBit s.nextRip s.rip (some (s.reg B)) false
    (s.setReg A (BitVec.ofNat 16 ((s.rip.toNat + 8) % 2 ^ 16)))) := by
  have hlink : s.rip + 8 = BitVec.ofNat 16 ((s.rip.toNat + 8) % 2 ^ 16) := add_eq_ofNat s.rip 8
  rw [← hlink]; rfl

theorem exec_ei : exec .ei s = .next (completeCycle s.tBit s.nextRip s.rip none false (s.setIntEnabled true)) := rfl

theorem exec_di : exec .di s = .next (completeCycle s.tBit s.nextRip s.rip none false (s.setIntEnabled false)) := rfl

theorem exec_rdi : exec (.rdi A) s =
    .next (completeCycle s.tBit s.nextRip s.rip none false (s.setReg A s.intret)) := rfl

theorem exec_reti : exec .reti s =
    .next (completeCycle s.tBit s.nextRip s.rip (some s.intret) false (s.setIntEnabled true)) := rfl

theorem exec_nop : exec .nop s = .next (completeCycle s.tBit s.nextRip s.rip none false s) := rfl

theorem exec_halt : exec .halt s = .next (completeCycle s.tBit s.nextRip s.rip none true s) := rfl

end

section
variable {A B : RegisterId} {s : State}

/-- Every address inside the store may be read and written under TISA (R220). -/
theorem tisa_check_of_lt {a : Nat} (h : a < 0x100) (k : Access) : Mmu.check Config.tisa a k = none :=
  Mmu.check_of_permitted Config.tisa (fun _ _ => rfl) h rfl

theorem exec_lb_of_lt (h : (s.reg B).toNat < 0x100) :
    exec (.lb A B) s = .next (completeCycle s.tBit s.nextRip s.rip none false
      (s.setReg A (BitVec.ofNat 16 (BitVec.toNat (s.byteAt Config.tisa (s.reg B).toNat))))) := by
  rw [exec_eq_runCycle, bodyOf, runCycle_bodyLb_of_check_none _ _ (tisa_check_of_lt h .read), zext16_eq_ofNat]

theorem exec_lb_of_le (h : 0x100 ≤ (s.reg B).toNat) :
    exec (.lb A B) s = .next (fireException (.accessFault .outOfBounds (s.reg B).toNat .read) s) := by
  rw [exec_eq_runCycle, bodyOf, runCycle_bodyLb_of_check_some _ _ (Mmu.check_of_memSize_le Config.tisa h .read)]

theorem exec_sb_of_lt (h : (s.reg B).toNat < 0x100) :
    exec (.sb A B) s = .next (completeCycle s.tBit s.nextRip s.rip none false
      { s with mem := Memory.set Config.tisa.initMem s.mem (s.reg B).toNat
                        (BitVec.ofNat 8 ((s.reg A).toNat % 2 ^ 8)) }) := by
  rw [exec_eq_runCycle, bodyOf, runCycle_bodySb_of_check_none _ _ (tisa_check_of_lt h .write), lowByte_eq_ofNat]

theorem exec_sb_of_le (h : 0x100 ≤ (s.reg B).toNat) :
    exec (.sb A B) s = .next (fireException (.accessFault .outOfBounds (s.reg B).toNat .write) s) := by
  rw [exec_eq_runCycle, bodyOf, runCycle_bodySb_of_check_some _ _ (Mmu.check_of_memSize_le Config.tisa h .write)]

end

/-! ## Arithmetic (R223 to R226, R240) -/

/-- Settles O42: the body writes the zero-extended immediate. -/
theorem liLoadsZeroExtendedImmediate : Obligations.LiLoadsZeroExtendedImmediate := by
  refine ⟨fun A I s => ⟨toNat_formatT_AI 0x01 A I, decodeWord_encodeWord rfl, exec_li A I s⟩, fun s => ?_, fun s => ?_⟩
  · exact ⟨_, exec_decodeWord_of_eq rfl (exec_li 1 0x2A s), by simp⟩
  · exact ⟨_, exec_decodeWord_of_eq rfl (exec_li 1 0xFF s), by simp⟩

/-- Settles O43: the old low byte becomes the high byte of the sum that the body writes. -/
theorem shbShiftsInTheByte : Obligations.ShbShiftsInTheByte := by
  refine ⟨fun A I s => ⟨toNat_formatT_AI 0x02 A I, decodeWord_encodeWord rfl, exec_shb A I s⟩, fun s hold => ?_⟩
  exact ⟨_, exec_decodeWord_of_eq rfl (exec_shb 1 0x34 s), by simp [hold, tisaWordBits]⟩

/-- Settles O44: the body reads both registers before it writes the sum. -/
theorem addWraps : Obligations.AddWraps := by
  refine ⟨fun A B s => ⟨toNat_formatT_AB 0x03 A B, decodeWord_encodeWord rfl, exec_add A B s⟩, fun s hA hB => ?_⟩
  exact ⟨_, exec_decodeWord_of_eq rfl (exec_add 1 2 s), by simp [hA, hB, tisaWordBits]⟩

/-- Settles O45: the body reads both registers before it writes the difference. -/
theorem subWraps : Obligations.SubWraps := by
  refine ⟨fun A B s => ⟨toNat_formatT_AB 0x04 A B, decodeWord_encodeWord rfl, exec_sub A B s⟩, fun s hA hB => ?_⟩
  exact ⟨_, exec_decodeWord_of_eq rfl (exec_sub 3 4 s), by simp [hA, hB]⟩

/-- Settles O46: the body adds the immediate's signed value. -/
theorem addiAddsSignExtendedImmediate : Obligations.AddiAddsSignExtendedImmediate := by
  refine ⟨fun A I s => ⟨toNat_formatT_AI 0x0F A I, decodeWord_encodeWord rfl, exec_addi A I s⟩, fun s hA => ?_,
    fun s hA => ?_⟩
  · exact ⟨_, exec_decodeWord_of_eq rfl (exec_addi 2 0xFF s), by simp [hA, tisaWordBits]⟩
  · exact ⟨_, exec_decodeWord_of_eq rfl (exec_addi 2 0x01 s), by simp [hA, tisaWordBits]⟩

/-! ## Memory (R227, R228) -/

/-- Settles O47: one case per answer of the check of `x[B]`; only the passing one writes `x[A]`. -/
theorem lbLoadsByteOrFaults : Obligations.LbLoadsByteOrFaults := by
  refine ⟨fun A B s => ⟨toNat_formatT_AB 0x05 A B, decodeWord_encodeWord rfl, exec_lb_of_lt, exec_lb_of_le⟩,
    fun c w A B s hin hdenied => ?_, fun s hbyte hB => ?_⟩
  · exact runCycle_bodyLb_of_check_some c w (Mmu.check_of_denied c hin hdenied)
  · have hin : (s.reg 2).toNat < 0x100 := by simp [hB, tisaWordBits]
    exact ⟨_, exec_decodeWord_of_eq rfl (exec_lb_of_lt (A := 1) (B := 2) hin), by simp [hB, hbyte, tisaWordBits]⟩

/-- Settles O48: one case per answer of the check of `x[B]`; only the passing one lays the low byte of `x[A]` there. -/
theorem sbStoresLowByteOrFaults : Obligations.SbStoresLowByteOrFaults := by
  refine ⟨fun A B s => ⟨toNat_formatT_AB 0x06 A B, decodeWord_encodeWord rfl, fun hin => ?_, exec_sb_of_le⟩,
    fun c w A B s hin hdenied => ?_, fun s hA hB => ?_⟩
  · refine ⟨_, exec_sb_of_lt hin, fun a => ?_, rfl⟩
    rw [State.byteAt_completeCycle, State.byteAt_set]
  · exact runCycle_bodySb_of_check_some c w (Mmu.check_of_denied c hin hdenied)
  · have hin : (s.reg 2).toNat < 0x100 := by simp [hB, tisaWordBits]
    refine ⟨_, exec_decodeWord_of_eq rfl (exec_sb_of_lt (A := 1) (B := 2) hin), ?_⟩
    simp [State.byteAt_set, hA, hB, tisaWordBits]

/-! ## Control transfers (R229, R230, R239) -/

/-- Settles O49: the body schedules `x[A]`. -/
theorem jrSchedulesRegister : Obligations.JrSchedulesRegister := by
  refine ⟨fun A s => ⟨toNat_formatT_A 0x07 A, decodeWord_encodeWord rfl, exec_jr A s⟩, fun s hA hrip hpending => ?_⟩
  exact ⟨_, exec_decodeWord_of_eq rfl (exec_jr 5 s), by simp [hA, hrip, hpending, advance, tisaWordBits, insnBytes]⟩

/-- Settles O50: the body schedules `x[B]` or nothing, as `x[A]` is zero or not. -/
theorem bzSchedulesOnlyOnZero : Obligations.BzSchedulesOnlyOnZero := by
  refine ⟨fun A B s => ⟨toNat_formatT_AB 0x08 A B, decodeWord_encodeWord rfl, fun hzero => ?_, fun hnonzero => ?_⟩,
    fun s hA hB hrip hpending => ?_⟩
  · rw [exec_bz, if_pos hzero]; rfl
  · rw [exec_bz, if_neg hnonzero]; rfl
  · refine ⟨_, exec_decodeWord_of_eq rfl (exec_bz 1 5 s), ?_⟩
    simp [hA, hB, hrip, hpending, advance, tisaWordBits, insnBytes]

/-- Settles O51: the target is read before the link is written, which is 8 past `rip`. -/
theorem jalrLinksPastTheDelaySlot : Obligations.JalrLinksPastTheDelaySlot := by
  refine ⟨fun A B s => ⟨toNat_formatT_AB 0x0E A B, decodeWord_encodeWord rfl, exec_jalr A B s⟩, fun s hB hrip => ?_,
    fun s hrip => ?_⟩
  · exact ⟨_, exec_decodeWord_of_eq rfl (exec_jalr 6 5 s), by simp [hB, hrip]⟩
  · exact ⟨_, exec_jalr 6 5 s, by simp [hrip, tisaWordBits]⟩

/-! ## The interrupt state (R231 to R234) -/

/-- Settles O52: at the next boundary no transfer is pending, so the written enable alone decides the answer. -/
theorem eiAndDiSetTheEnable : Obligations.EiAndDiSetTheEnable := by
  refine ⟨rfl, rfl, rfl, rfl, fun s => ⟨⟨_, exec_ei s, rfl, fun hrun id hid => ?_⟩,
    ⟨_, exec_di s, rfl, fun hrun id hid => ?_⟩⟩⟩
  · exact ⟨_, fireInterrupt_of_enabled (tisa_handler_of_lt hid) hrun rfl rfl⟩
  · exact fireInterrupt_of_disabled (tisa_handler_of_lt hid) hrun rfl

/-- Settles O53: the body writes `intret` to `x[A]`. -/
theorem rdiReadsIntret : Obligations.RdiReadsIntret := by
  refine ⟨fun A s => ⟨toNat_formatT_A 0x0B A, decodeWord_encodeWord rfl, exec_rdi A s⟩, fun s hintret => ?_⟩
  exact ⟨_, exec_decodeWord_of_eq rfl (exec_rdi 7 s), by simp [hintret]⟩

/-- Settles O54: RETI leaves a transfer to `intret` pending, which refuses interrupts; the cycle of NOP takes the transfer. -/
theorem retiReturnsAfterOneDelaySlot : Obligations.RetiReturnsAfterOneDelaySlot := by
  refine ⟨rfl, rfl, fun s => ⟨_, exec_reti s, rfl, fun hrun id hid => ?_, ?_⟩⟩
  · exact fireInterrupt_of_pending_refuse (tisa_handler_of_lt hid) hrun rfl rfl rfl
  · exact ⟨_, exec_nop _, rfl, rfl, rfl⟩

/-! ## NOP and HALT (R235, R236) -/

/-- Settles O55: a cycle's end is all that NOP does. -/
theorem nopOnlyAdvances : Obligations.NopOnlyAdvances :=
  ⟨rfl, rfl, exec_nop⟩

/-- Settles O56: a halting cycle completes like the others before it halts. -/
theorem haltCompletesThenHalts : Obligations.HaltCompletesThenHalts :=
  ⟨rfl, rfl, exec_halt⟩

end Sys2Proof.Machine
end

section
/-! PROOFS. Faults, the end of a run, and interrupts: what is terminal, how often a fault is surfaced, when an interrupt is
answered and what its entry writes (60_exceptions.md R272 to R276, R281 to R284, R298, R300). -/

namespace Sys2Proof.Smol2
open Sys2Proof.Machine

/-! ## The host's calls (R298, R300) -/

section
variable {wb : Nat} (c : Config wb) (E : Exec wb) {s t : State wb}

/-- With no call pending the step is `execute_single` (R324, log 7). -/
theorem coreStep_of_host_nil (h : s.host = []) : coreStep c E s = executeSingle c E s := by
  simp only [coreStep, hostStep, h]

/-- With calls pending the step takes the next one off the script and performs it (R298, log 7). -/
theorem coreStep_of_host_cons {call : HostCall} {rest : List HostCall} (h : s.host = call :: rest) :
    coreStep c E s = performCall c (executeSingle c E) call { s with host := rest } := by
  simp only [coreStep, hostStep, h]

/-- The answer of `fire_interrupt` goes to the host (R298). -/
theorem performCall_fireInterrupt_of_next (cycle : State wb → Outcome wb) {id : Nat} {answer : Bool}
    (h : fireInterrupt c id s = .next (answer, t)) :
    performCall c cycle (.fireInterrupt id) s = .next { t with replies := t.replies ++ [answer] } := by
  simp only [performCall, h]

/-- `fire_interrupt` as a call of the host has a step only if it answers (R284, R298). -/
theorem fireInterrupt_of_performCall {cycle : State wb → Outcome wb} {id : Nat}
    (h : performCall c cycle (.fireInterrupt id) s = .next t) :
    ∃ answer u, fireInterrupt c id s = .next (answer, u) := by
  rw [performCall] at h
  split at h
  case h_1 answer u hfire => exact ⟨answer, u, hfire⟩
  all_goals cases h

end

/-- Settles O34: the step performs the next call of the script. -/
theorem hostCallsAreSteps : Obligations.HostCallsAreSteps := by
  intro wb c E s
  refine ⟨coreStep_of_host_nil c E, fun rest => ⟨coreStep_of_host_cons c E, fun now => coreStep_of_host_cons c E, ?_⟩⟩
  intro id answer t hhost hfire
  rw [coreStep_of_host_cons c E hhost, performCall_fireInterrupt_of_next c _ hfire]

/-! ## Faults and the end of a run (R154, R272 to R276) -/

/-- Settles O26: the checked status and the fault are each one update. -/
theorem faultIsTakenAndTouchesNothingElse : Obligations.FaultIsTakenAndTouchesNothingElse :=
  fun _ _ => ⟨fun _ => rfl, fun _ _ _ => rfl, fun _ => rfl⟩

section
variable {wb : Nat} (c : Config wb) (E : Exec wb) {s : State wb}

/-- A run that has ended is not going on (R158). -/
theorem run_ne_running_of_ended (h : s.run.ended = true) : s.run ≠ .running := by
  intro hrunning
  rw [hrunning] at h
  cases h

/-- No cycle follows the end of a run (R146, R154, R275). -/
theorem executeSingle_ne_next_of_ended (h : s.run.ended = true) (t : State wb) : executeSingle c E s ≠ .next t :=
  fun hcycle => run_ne_running_of_ended h (executeSingle_next c E hcycle).1

/-- No boot follows the end of a run (R143, R275). -/
theorem boot_ne_next_of_ended (h : s.run.ended = true) (now : HostTime) (t : State wb) : boot c now s ≠ .next t := by
  intro hboot
  obtain ⟨hidle | ⟨hrunning, -⟩, -⟩ := boot_next c hboot
  · rw [hidle] at h
    cases h
  · exact run_ne_running_of_ended h hrunning

/-- No interrupt follows the end of a run (R284). -/
theorem fireInterrupt_ne_next_of_ended (h : s.run.ended = true) (id : Nat) (answered : Bool × State wb) :
    fireInterrupt c id s ≠ .next answered :=
  fun hfire => run_ne_running_of_ended h (fireInterrupt_next c hfire).1

/-- No call of the host follows the end of a run (R275). -/
theorem performCall_ne_next_of_ended (h : s.run.ended = true) (call : HostCall) (t : State wb) :
    performCall c (executeSingle c E) call s ≠ .next t := by
  cases call with
  | boot now => exact boot_ne_next_of_ended c h now t
  | executeSingle => exact executeSingle_ne_next_of_ended c E h t
  | fireInterrupt id =>
    intro hcall
    obtain ⟨answer, u, hfire⟩ := fireInterrupt_of_performCall c hcall
    exact fireInterrupt_ne_next_of_ended c h id _ hfire

end

/-- Settles O27: every call of the host has a step only in `Idle` or `Running`, and a step is one such call. -/
theorem faultedAndHaltedAreTerminal : Obligations.FaultedAndHaltedAreTerminal := by
  intro wb c E s hended
  refine ⟨executeSingle_ne_next_of_ended c E hended, boot_ne_next_of_ended c hended,
    fun id t => fireInterrupt_ne_next_of_ended c hended id t, fun t => ?_⟩
  cases hhost : s.host with
  | nil =>
    rw [coreStep_of_host_nil c E hhost]
    exact executeSingle_ne_next_of_ended c E hended t
  | cons call rest =>
    rw [coreStep_of_host_cons c E hhost]
    exact performCall_ne_next_of_ended c E (s := { s with host := rest }) hended call t

/-- A loaded core satisfies the invariant: it has run nothing and surfaced nothing (R72, R141). -/
theorem State.Inv.construct {wb : Nat} {c : Config wb} {image : List Byte} {s : State wb}
    (h : Smol2.construct c image = some s) : s.Inv c := by
  rw [Smol2.construct] at h
  split at h
  · obtain rfl := Option.some.inj h
    exact {
      memory := Memory.wf_place _ _ _ _ (Memory.wf_nil _ _)
      panicOnce := rfl
      counted := rfl
      idleFresh := fun _ => ⟨rfl, rfl, rfl⟩
      bootFresh := fun _ _ => ⟨rfl, rfl, rfl⟩ }
  · cases h

/-- Every run of the core keeps the invariant, for any configuration and collaborator (R300). -/
theorem State.Inv.coreRun {wb : Nat} {c : Config wb} {E : Exec wb} {n : Nat} {s t : State wb} (h : s.Inv c)
    (hrun : Smol2.coreRun c E n s = .next t) : t.Inv c := by
  induction n generalizing s with
  | zero => exact Host.Outcome.next.inj hrun ▸ h
  | succ n ih =>
    rw [Smol2.coreRun] at hrun
    split at hrun
    case h_1 u hstep => exact ih (h.coreStep hstep) hrun
    all_goals cases hrun

/-- A core is in at most one fault (R33). -/
theorem RunState.length_reasons_le_one {wb : Nat} (run : RunState wb) : run.reasons.length ≤ 1 := by
  cases run <;> simp [RunState.reasons]

/-- Settles O28: the invariant holds of the loaded core, every run keeps it, and it bounds the panics by the fault the core
is in. -/
theorem atMostOnePanicPerRun : Obligations.AtMostOnePanicPerRun := by
  intro wb c E image script n s t hload hrun
  have hinv : t.Inv c := ((State.Inv.construct hload).of_host script s.replies).coreRun hrun
  exact ⟨hinv.panicOnce ▸ t.run.length_reasons_le_one, hinv.panicOnce, hinv.counted⟩

/-! ## Interrupts (R281 to R284) -/

section
variable {wb : Nat} {c : Config wb} {id : Nat} {handler : Word wb} {s : State wb}

/-- Under `Clear` an enabled interrupt is accepted, whether or not a transfer is pending, and none is left pending (R283). -/
theorem fireInterrupt_of_clear (hid : c.handler id = some handler) (hrun : s.run = .running)
    (henabled : s.enabled = true) (hclear : c.intInDelaySlot = .clear) :
    fireInterrupt c id s = .next (true, enterInterrupt handler false s) := by
  simp [fireInterrupt, hid, hrun, henabled, hclear]

/-- Under `Keep` an enabled interrupt is accepted while a transfer is pending, and leaves `t_bit` (R283). -/
theorem fireInterrupt_of_pending_keep (hid : c.handler id = some handler) (hrun : s.run = .running)
    (henabled : s.enabled = true) (hpending : s.tBit = true) (hkeep : c.intInDelaySlot = .keep) :
    fireInterrupt c id s = .next (true, enterInterrupt handler true s) := by
  simp [fireInterrupt, hid, hrun, henabled, hpending, hkeep]

/-- After interrupt entry with `t_bit` set, the handler's first instruction is followed by itself, unless it faults (R150,
R283). -/
theorem executeSingle_enterInterrupt_rip {E : Exec wb} {u : State wb}
    (hcycle : executeSingle c E (enterInterrupt handler true s) = .next u) (hfault : ∀ r, u.run ≠ .faulted r) :
    u.rip = handler :=
  (executeSingle_pointers c E hcycle hfault).1

end

/-- Settles O32: an interrupt is ignored in the same state, or it enters its handler, which leaves `run` alone. -/
theorem interruptOnlyWhenRunning : Obligations.InterruptOnlyWhenRunning := by
  intro wb c id s answer t hfire
  obtain ⟨hrunning, ⟨hdisabled, rfl, rfl⟩ | ⟨henabled, rfl, entry, tBit, -, rfl, -, -⟩⟩ := fireInterrupt_next c hfire
  · exact ⟨hrunning, hrunning, hdisabled.symm⟩
  · exact ⟨hrunning, hrunning, henabled.symm⟩

/-- Settles O29: interrupt entry disables interrupts, so a second interrupt meets the same answer as a disabled one. -/
theorem disabledInterruptIsIgnoredAndNotLatched : Obligations.DisabledInterruptIsIgnoredAndNotLatched := by
  intro wb c id entry s hid
  refine ⟨fireInterrupt_of_disabled hid, fun first t hfirst => ?_⟩
  obtain ⟨hrunning, ⟨-, hanswer, -⟩ | ⟨-, -, firstEntry, tBit, -, rfl, -, -⟩⟩ := fireInterrupt_next c hfirst
  · cases hanswer
  · exact fireInterrupt_of_disabled hid hrunning rfl

/-- Settles O30: with no transfer pending, or under `Clear`, the entry leaves none. -/
theorem interruptEntrySavesRipAndDisables : Obligations.InterruptEntrySavesRipAndDisables := by
  intro wb c id entry s hid hrunning
  refine ⟨fun henabled hentry => ?_, fireInterrupt_of_disabled hid hrunning⟩
  rcases hentry with hpending | hclear
  · exact fireInterrupt_of_enabled hid hrunning henabled hpending
  · exact fireInterrupt_of_clear hid hrunning henabled hclear

/-- Settles O31: one case per setting; under `Keep` the pending transfer's target is the handler itself. -/
theorem interruptInDelaySlotFollowsItsParameter : Obligations.InterruptInDelaySlotFollowsItsParameter := by
  intro wb c id entry s hid hrunning henabled hpending
  refine ⟨fireInterrupt_of_pending_refuse hid hrunning henabled hpending,
    fireInterrupt_of_clear hid hrunning henabled, fun hkeep => ?_⟩
  refine ⟨enterInterrupt entry true s, fireInterrupt_of_pending_keep hid hrunning henabled hpending hkeep, ?_,
    fun E u => executeSingle_enterInterrupt_rip⟩
  rw [← hpending]
  rfl

end Sys2Proof.Smol2
end

section
/-! PROOFS. Reset of the fixed machine (70_reset_and_hazards.md R320, R321). -/

namespace Sys2Proof.Smol2
open Sys2Proof.Machine

/-- A core constructed with no image is the one before loading: an empty image fits every store (R72, R141). -/
theorem construct_nil {wb : Nat} (c : Config wb) : construct c [] = some (State.unloaded wb) :=
  if_pos (Nat.zero_le c.memSize)

/-- Booting the TISA configuration's core with no image, at the draw log 5 names, makes the reset state (R320, R321). -/
theorem bootState_unloaded_eq_reset :
    bootState Config.tisa State.reset.startTimestamp (State.unloaded tisaWordBits) = State.reset := rfl

/-- `boot` is admitted in the core with no image and ends in the reset state (R143, R320). -/
theorem boot_unloaded_eq_reset :
    boot Config.tisa State.reset.startTimestamp (State.unloaded tisaWordBits) = .next State.reset :=
  bootState_unloaded_eq_reset ▸ boot_of_admitted Config.tisa _ (.inl rfl)

/-- Every register is 0 at reset, as `boot` leaves it (R321). -/
theorem State.reg_reset (i : RegisterId) : State.reset.reg i = 0 :=
  bootState_unloaded_eq_reset ▸ State.reg_bootState Config.tisa _ (State.unloaded tisaWordBits) i

/-- Settles O13: the core between construction and boot is the one with no image. -/
theorem resetIsConstructionThenBoot : Obligations.ResetIsConstructionThenBoot :=
  ⟨State.unloaded tisaWordBits, construct_nil Config.tisa, boot_unloaded_eq_reset, rfl, rfl, rfl, rfl, State.reg_reset⟩

/-- Settles O38: construction makes the invariant and `boot` keeps it, so it holds of the state they end in. -/
theorem resetSatisfiesTheInvariant : Obligations.ResetSatisfiesTheInvariant :=
  (State.Inv.construct (construct_nil Config.tisa)).boot boot_unloaded_eq_reset

end Sys2Proof.Smol2
end
